-- ==== Sys2Proof/Word.lean ====
section
/-! DEFINITION. The word types of the core (spec/00_scope.md R5, R8, R9): every value is an unsigned
integer of a stated width; register, stack, key and pixel indices are plain finite indices. -/

namespace Sys2Proof

/-- A memory byte, a general register, a timer, an immediate `kk` (R5, R9). -/
abbrev Byte := BitVec 8

/-- An opcode word, `I`, `pc`, a stack entry (R5, R9). -/
abbrev Word := BitVec 16

/-- The address immediate `nnn` (R91). -/
abbrev Addr12 := BitVec 12

/-- A pixel, 0 or 1 (R29). -/
abbrev Pixel := BitVec 1

/-- A general register's number, 0x0 to 0xF (R20). -/
abbrev Reg := Fin 16

/-- The number of VF, the carry, borrow and collision flag (R21). -/
abbrev regF : Reg := 15

/-- `zext_16` (R8). -/
abbrev zext16 {n : Nat} (b : BitVec n) : Word := b.setWidth 16

end Sys2Proof
end

