-- ==== Sys2Proof/Config.lean ====
section
/-! DEFINITION. What an implementation fixes (spec/00_scope.md R5, R6) and the one free value, the
random byte of Cxkk (spec/42_alu.md R178). The parameters of R6 are a plain record, so that a statement
over all configurations covers every choice the source leaves open. -/

namespace Sys2Proof

/-- `MEMORY_SIZE` (R5). -/
abbrev memorySize : Nat := 0x1000

/-- `PROGRAM_START` (R5). -/
abbrev programStart : Nat := 0x200

/-- `FONTSET_START` (R5). -/
abbrev fontStart : Nat := 0x050

/-- `FONTSET_SIZE` (R5). -/
abbrev fontSize : Nat := 80

/-- `STACK_DEPTH` (R5). -/
abbrev stackDepth : Nat := 16

/-- `MAX_PROGRAM` (R5). -/
abbrev maxProgram : Nat := memorySize - programStart

/-- `MEM_OOB_POLICY` (R6, decision D2). -/
inductive MemOobPolicy where
  | fault
  | wrap12
deriving DecidableEq, Repr

/-- `ALU_VF_ORDER` (R6, R166, decision D5). -/
inductive AluVfOrder where
  | snapshot
  | sequential
deriving DecidableEq, Repr

/-- `GROUP0_MATCH` (R6, R112, decision D12). -/
inductive Group0Match where
  | fullWord
  | lowByte
deriving DecidableEq, Repr

/-- `KEY_OOB_POLICY` (R6, R230, decision D11). -/
inductive KeyOobPolicy where
  | fault
  | notPressed
  | lowNibble
deriving DecidableEq, Repr

/-- The configuration parameters of R6. -/
structure Config where
  memOob   : MemOobPolicy
  aluOrder : AluVfOrder
  strict59 : Bool
  group0   : Group0Match
  keyOob   : KeyOobPolicy
  fontset  : Vector Byte fontSize
deriving DecidableEq, Repr

/-- The default `FONTSET` (spec/10_state.md R27). PRESUMED: the spec marks the byte values as general
knowledge, not in the source (log 3); the size and the layout are the source's. -/
def defaultFontset : Vector Byte fontSize :=
  #v[0xF0, 0x90, 0x90, 0x90, 0xF0,  0x20, 0x60, 0x20, 0x20, 0x70,
     0xF0, 0x10, 0xF0, 0x80, 0xF0,  0xF0, 0x10, 0xF0, 0x10, 0xF0,
     0x90, 0x90, 0xF0, 0x10, 0x10,  0xF0, 0x80, 0xF0, 0x10, 0xF0,
     0xF0, 0x80, 0xF0, 0x90, 0xF0,  0xF0, 0x10, 0x20, 0x40, 0x40,
     0xF0, 0x90, 0xF0, 0x90, 0xF0,  0xF0, 0x90, 0xF0, 0x10, 0xF0,
     0xF0, 0x90, 0xF0, 0x90, 0x90,  0xE0, 0x90, 0xE0, 0x90, 0xE0,
     0xF0, 0x80, 0x80, 0x80, 0xF0,  0xE0, 0x90, 0x90, 0x90, 0xE0,
     0xF0, 0x80, 0xF0, 0x80, 0xF0,  0xF0, 0x80, 0xF0, 0x80, 0x80]

/-- The default of every parameter (R6). DESIGN CHOICE of the spec (log 2). -/
def Config.default : Config where
  memOob   := .fault
  aluOrder := .snapshot
  strict59 := false
  group0   := .fullWord
  keyOob   := .fault
  fontset  := defaultFontset

/-- FREE VALUE: the random byte the host's source supplies to the k-th draw (R178, U9). It has no
body: every byte is a possible draw and nothing can be proved of it (log 4). -/
opaque Config.randomByte : Nat → Byte

end Sys2Proof
end

