-- ==== Sys2Proof/Syntax.lean ====
section
/-! DEFINITION. The instructions: one constructor per row of spec/opcode_table.json, in its order
(spec/30_encoding.md R120), with the operand fields of R91. `x`, `y` are register numbers, `kk` the byte
immediate, `nnn` the 12-bit address immediate, `n` the 4-bit count. -/

namespace Sys2Proof

/-- The 35 instructions of R120 and the no-op. -/
inductive Instr where
  | sys (nnn : Addr12)            -- 0nnn, a no-op (R110)
  | cls                           -- 00E0 (R210)
  | ret                           -- 00EE (R132)
  | jp (nnn : Addr12)             -- 1nnn (R133)
  | call (nnn : Addr12)           -- 2nnn (R134)
  | seByte (x : Reg) (kk : Byte)  -- 3xkk (R135)
  | sneByte (x : Reg) (kk : Byte) -- 4xkk (R136)
  | seReg (x y : Reg)             -- 5xy0 (R137)
  | ldByte (x : Reg) (kk : Byte)  -- 6xkk (R160)
  | addByte (x : Reg) (kk : Byte) -- 7xkk (R161)
  | ldReg (x y : Reg)             -- 8xy0 (R162)
  | or (x y : Reg)                -- 8xy1 (R163)
  | and (x y : Reg)               -- 8xy2 (R164)
  | xor (x y : Reg)               -- 8xy3 (R165)
  | addReg (x y : Reg)            -- 8xy4 (R167)
  | sub (x y : Reg)               -- 8xy5 (R168)
  | shr (x y : Reg)               -- 8xy6 (R169): y decoded and ignored
  | subn (x y : Reg)              -- 8xy7 (R170)
  | shl (x y : Reg)               -- 8xyE (R171): y decoded and ignored
  | sneReg (x y : Reg)            -- 9xy0 (R138)
  | ldI (nnn : Addr12)            -- Annn (R190)
  | jpV0 (nnn : Addr12)           -- Bnnn (R139)
  | rnd (x : Reg) (kk : Byte)     -- Cxkk (R177)
  | drw (x y : Reg) (n : Fin 16)  -- Dxyn (R212)
  | skp (x : Reg)                 -- Ex9E (R231)
  | sknp (x : Reg)                -- ExA1 (R232)
  | ldVxDt (x : Reg)              -- Fx07 (R233)
  | ldVxK (x : Reg)               -- Fx0A (R234)
  | ldDtVx (x : Reg)              -- Fx15 (R237)
  | ldStVx (x : Reg)              -- Fx18 (R238)
  | addI (x : Reg)                -- Fx1E (R192)
  | ldF (x : Reg)                 -- Fx29 (R193)
  | ldB (x : Reg)                 -- Fx33 (R194)
  | stRegs (x : Reg)              -- Fx55 (R195)
  | ldRegs (x : Reg)              -- Fx65 (R196)
  | nop (w : Word)                -- any word no other row matches (R110)
deriving DecidableEq, Repr

end Sys2Proof
end

