-- ==== Sys2Proof/WellFormed.lean ====
section
/-! DEFINITION. Which instruction terms stand for a word of the opcode map. Operand ranges are in the
types; what is left to check is that a `sys` is no word of the rows CLS and RET, which take priority
over it (spec/30_encoding.md R120), and that a `nop` carries a word R121 lists as unrecognised. -/

namespace Sys2Proof

/-- The words that group 0 gives to CLS or RET under the configuration (R112). -/
def isClsOrRet (c : Config) (nnn : Addr12) : Bool :=
  match c.group0 with
  | .fullWord => nnn == 0x0E0 || nnn == 0x0EE
  | .lowByte  => nnn.extractLsb' 0 8 == 0xE0 || nnn.extractLsb' 0 8 == 0xEE

/-- R121's table of unrecognised words, groups 5, 8, 9, E and F (group 0's are the row SYS). -/
def isUnrecognised (c : Config) (w : Word) : Bool :=
  let op := w.extractLsb' 12 4
  let n  := w.extractLsb' 0 4
  let kk := w.extractLsb' 0 8
  (op == 0x8 && [0x8, 0x9, 0xA, 0xB, 0xC, 0xD, 0xF].contains n)
    || (op == 0xE && !([0x9E, 0xA1].contains kk))
    || (op == 0xF && !([0x07, 0x0A, 0x15, 0x18, 0x1E, 0x29, 0x33, 0x55, 0x65].contains kk))
    || (c.strict59 && (op == 0x5 || op == 0x9) && n != 0)

/-- The term stands for a word of the opcode map under the configuration. -/
def Instr.wellFormed (c : Config) : Instr → Bool
  | .sys nnn => !isClsOrRet c nnn
  | .nop w => isUnrecognised c w
  | .cls => true
  | .ret => true
  | .jp _ => true
  | .call _ => true
  | .seByte _ _ => true
  | .sneByte _ _ => true
  | .seReg _ _ => true
  | .ldByte _ _ => true
  | .addByte _ _ => true
  | .ldReg _ _ => true
  | .or _ _ => true
  | .and _ _ => true
  | .xor _ _ => true
  | .addReg _ _ => true
  | .sub _ _ => true
  | .shr _ _ => true
  | .subn _ _ => true
  | .shl _ _ => true
  | .sneReg _ _ => true
  | .ldI _ => true
  | .jpV0 _ => true
  | .rnd _ _ => true
  | .drw _ _ _ => true
  | .skp _ => true
  | .sknp _ => true
  | .ldVxDt _ => true
  | .ldVxK _ => true
  | .ldDtVx _ => true
  | .ldStVx _ => true
  | .addI _ => true
  | .ldF _ => true
  | .ldB _ => true
  | .stRegs _ => true
  | .ldRegs _ => true

end Sys2Proof
end

