-- ==== Sys2Proof/Decode.lean ====
section
/-! DEFINITION. Decoding (spec/30_encoding.md R91, R111 to R117), the encoder (R92), and the opcode map
of R120 as a list of rows, a second transcription to hold the decoder against. -/

namespace Sys2Proof

/-! ### Fields (R91) -/

/-- `op = w[15:12]`. -/
def fieldOp (w : Word) : Fin 16 := ⟨(w.extractLsb' 12 4).toNat, (w.extractLsb' 12 4).isLt⟩

/-- `x = w[11:8]`. -/
def fieldX (w : Word) : Reg := ⟨(w.extractLsb' 8 4).toNat, (w.extractLsb' 8 4).isLt⟩

/-- `y = w[7:4]`. -/
def fieldY (w : Word) : Reg := ⟨(w.extractLsb' 4 4).toNat, (w.extractLsb' 4 4).isLt⟩

/-- `n = w[3:0]`. -/
def fieldN (w : Word) : Fin 16 := ⟨(w.extractLsb' 0 4).toNat, (w.extractLsb' 0 4).isLt⟩

/-- `kk = w[7:0]`. -/
def fieldKK (w : Word) : Byte := w.extractLsb' 0 8

/-- `nnn = w[11:0]`. -/
def fieldNNN (w : Word) : Addr12 := w.extractLsb' 0 12

/-! ### The decoder (R117) -/

/-- Group 0 (R112). -/
def decodeGroup0 (c : Config) (w : Word) : Instr :=
  match c.group0 with
  | .fullWord => if w = 0x00E0 then .cls else if w = 0x00EE then .ret else .sys (fieldNNN w)
  | .lowByte =>
    if fieldKK w = 0xE0 then .cls else if fieldKK w = 0xEE then .ret else .sys (fieldNNN w)

/-- Groups 5 and 9 (R113): `i` is the group's instruction. -/
def decodeGroup59 (c : Config) (i : Instr) (w : Word) : Instr :=
  if c.strict59 = true ∧ fieldN w ≠ 0 then .nop w else i

/-- Group 8 (R114). -/
def decodeGroup8 (w : Word) : Instr :=
  match (fieldN w).val with
  | 0x0 => .ldReg (fieldX w) (fieldY w)
  | 0x1 => .or (fieldX w) (fieldY w)
  | 0x2 => .and (fieldX w) (fieldY w)
  | 0x3 => .xor (fieldX w) (fieldY w)
  | 0x4 => .addReg (fieldX w) (fieldY w)
  | 0x5 => .sub (fieldX w) (fieldY w)
  | 0x6 => .shr (fieldX w) (fieldY w)
  | 0x7 => .subn (fieldX w) (fieldY w)
  | 0xE => .shl (fieldX w) (fieldY w)
  | _ => .nop w

/-- Group E (R115). -/
def decodeGroupE (w : Word) : Instr :=
  if fieldKK w = 0x9E then .skp (fieldX w)
  else if fieldKK w = 0xA1 then .sknp (fieldX w)
  else .nop w

/-- Group F (R116). -/
def decodeGroupF (w : Word) : Instr :=
  if fieldKK w = 0x07 then .ldVxDt (fieldX w)
  else if fieldKK w = 0x0A then .ldVxK (fieldX w)
  else if fieldKK w = 0x15 then .ldDtVx (fieldX w)
  else if fieldKK w = 0x18 then .ldStVx (fieldX w)
  else if fieldKK w = 0x1E then .addI (fieldX w)
  else if fieldKK w = 0x29 then .ldF (fieldX w)
  else if fieldKK w = 0x33 then .ldB (fieldX w)
  else if fieldKK w = 0x55 then .stRegs (fieldX w)
  else if fieldKK w = 0x65 then .ldRegs (fieldX w)
  else .nop w

/-- `Decode(w)` (R117), total on the 65536 words (R105). The last arm is group 0xF, the only value of
`op` the others leave. -/
def decodeWord (c : Config) (w : Word) : Instr :=
  match (fieldOp w).val with
  | 0x0 => decodeGroup0 c w
  | 0x1 => .jp (fieldNNN w)
  | 0x2 => .call (fieldNNN w)
  | 0x3 => .seByte (fieldX w) (fieldKK w)
  | 0x4 => .sneByte (fieldX w) (fieldKK w)
  | 0x5 => decodeGroup59 c (.seReg (fieldX w) (fieldY w)) w
  | 0x6 => .ldByte (fieldX w) (fieldKK w)
  | 0x7 => .addByte (fieldX w) (fieldKK w)
  | 0x8 => decodeGroup8 w
  | 0x9 => decodeGroup59 c (.sneReg (fieldX w) (fieldY w)) w
  | 0xA => .ldI (fieldNNN w)
  | 0xB => .jpV0 (fieldNNN w)
  | 0xC => .rnd (fieldX w) (fieldKK w)
  | 0xD => .drw (fieldX w) (fieldY w) (fieldN w)
  | 0xE => decodeGroupE w
  | _ => decodeGroupF w

/-- The word of two bytes, the byte at the lower address first (R7, R61). -/
def wordOfBytes (hi lo : Byte) : Word := hi ++ lo

/-- Why a list of bytes starts with no instruction. Every 16-bit word is one (R122), so only a list
that is too short is refused. -/
inductive DecodeError where
  | noBytes
  | halfWord
deriving DecidableEq, Repr

/-- The first instruction of a list of bytes, and the bytes after it. -/
def decodeBytes (c : Config) : List Byte → Except DecodeError (Instr × List Byte)
  | [] => .error .noBytes
  | [_] => .error .halfWord
  | hi :: lo :: rest => .ok (decodeWord c (wordOfBytes hi lo), rest)

/-! ### The encoder (R92) -/

/-- A register number or count as a nibble. -/
def nibble (x : Fin 16) : BitVec 4 := BitVec.ofNat 4 x.val

/-- Format `FA`. -/
def formatFA (op : BitVec 4) (nnn : Addr12) : Word := op ++ nnn

/-- Format `FXK`, and `FX` with its fixed low byte. -/
def formatFXK (op : BitVec 4) (x : Reg) (kk : Byte) : Word := op ++ nibble x ++ kk

/-- Formats `FXY` and `FXYN`. -/
def formatFXYN (op : BitVec 4) (x y : Reg) (n : BitVec 4) : Word := op ++ nibble x ++ nibble y ++ n

/-- The word of an instruction. Bits a row leaves without meaning (the low nibble of 5xy0 and 9xy0 when
not strict, the `x` nibble of CLS and RET under `LowByte`) are written as the table's pattern has them,
zero (log 8). -/
def encode : Instr → Word
  | .sys nnn => formatFA 0x0 nnn
  | .cls => 0x00E0
  | .ret => 0x00EE
  | .jp nnn => formatFA 0x1 nnn
  | .call nnn => formatFA 0x2 nnn
  | .seByte x kk => formatFXK 0x3 x kk
  | .sneByte x kk => formatFXK 0x4 x kk
  | .seReg x y => formatFXYN 0x5 x y 0x0
  | .ldByte x kk => formatFXK 0x6 x kk
  | .addByte x kk => formatFXK 0x7 x kk
  | .ldReg x y => formatFXYN 0x8 x y 0x0
  | .or x y => formatFXYN 0x8 x y 0x1
  | .and x y => formatFXYN 0x8 x y 0x2
  | .xor x y => formatFXYN 0x8 x y 0x3
  | .addReg x y => formatFXYN 0x8 x y 0x4
  | .sub x y => formatFXYN 0x8 x y 0x5
  | .shr x y => formatFXYN 0x8 x y 0x6
  | .subn x y => formatFXYN 0x8 x y 0x7
  | .shl x y => formatFXYN 0x8 x y 0xE
  | .sneReg x y => formatFXYN 0x9 x y 0x0
  | .ldI nnn => formatFA 0xA nnn
  | .jpV0 nnn => formatFA 0xB nnn
  | .rnd x kk => formatFXK 0xC x kk
  | .drw x y n => formatFXYN 0xD x y (nibble n)
  | .skp x => formatFXK 0xE x 0x9E
  | .sknp x => formatFXK 0xE x 0xA1
  | .ldVxDt x => formatFXK 0xF x 0x07
  | .ldVxK x => formatFXK 0xF x 0x0A
  | .ldDtVx x => formatFXK 0xF x 0x15
  | .ldStVx x => formatFXK 0xF x 0x18
  | .addI x => formatFXK 0xF x 0x1E
  | .ldF x => formatFXK 0xF x 0x29
  | .ldB x => formatFXK 0xF x 0x33
  | .stRegs x => formatFXK 0xF x 0x55
  | .ldRegs x => formatFXK 0xF x 0x65
  | .nop w => w

/-- The bytes of a word as memory holds them, the high byte first (R61). -/
def bytesOfWord (w : Word) : List Byte := [w.extractLsb' 8 8, w.extractLsb' 0 8]

/-! ### The opcode map as rows (R120) -/

/-- A row of R120: its number, and the words it matches, `w &&& mask = bits`. -/
structure OpcodeRow where
  number : Nat
  mask   : Word
  bits   : Word
deriving DecidableEq, Repr

/-- The row matches the word. -/
def OpcodeRow.covers (r : OpcodeRow) (w : Word) : Bool := w &&& r.mask == r.bits

/-- R120's rows in order of priority: rows 2 and 3 before row 1, the no-op row 36 last. The two
parameters of decoding change the masks of rows 2, 3, 8 and 20 as R120 says. -/
def opcodeRows (c : Config) : List OpcodeRow :=
  let mask0 : Word := match c.group0 with | .fullWord => 0xFFFF | .lowByte => 0xF0FF
  let mask59 : Word := if c.strict59 then 0xF00F else 0xF000
  [⟨2, mask0, 0x00E0⟩, ⟨3, mask0, 0x00EE⟩]
    ++ [⟨4, 0xF000, 0x1000⟩, ⟨5, 0xF000, 0x2000⟩, ⟨6, 0xF000, 0x3000⟩, ⟨7, 0xF000, 0x4000⟩,
        ⟨8, mask59, 0x5000⟩, ⟨9, 0xF000, 0x6000⟩, ⟨10, 0xF000, 0x7000⟩]
    ++ [⟨11, 0xF00F, 0x8000⟩, ⟨12, 0xF00F, 0x8001⟩, ⟨13, 0xF00F, 0x8002⟩, ⟨14, 0xF00F, 0x8003⟩,
        ⟨15, 0xF00F, 0x8004⟩, ⟨16, 0xF00F, 0x8005⟩, ⟨17, 0xF00F, 0x8006⟩, ⟨18, 0xF00F, 0x8007⟩,
        ⟨19, 0xF00F, 0x800E⟩, ⟨20, mask59, 0x9000⟩]
    ++ [⟨21, 0xF000, 0xA000⟩, ⟨22, 0xF000, 0xB000⟩, ⟨23, 0xF000, 0xC000⟩, ⟨24, 0xF000, 0xD000⟩]
    ++ [⟨25, 0xF0FF, 0xE09E⟩, ⟨26, 0xF0FF, 0xE0A1⟩, ⟨27, 0xF0FF, 0xF007⟩, ⟨28, 0xF0FF, 0xF00A⟩,
        ⟨29, 0xF0FF, 0xF015⟩, ⟨30, 0xF0FF, 0xF018⟩, ⟨31, 0xF0FF, 0xF01E⟩, ⟨32, 0xF0FF, 0xF029⟩,
        ⟨33, 0xF0FF, 0xF033⟩, ⟨34, 0xF0FF, 0xF055⟩, ⟨35, 0xF0FF, 0xF065⟩]
    ++ [⟨1, 0xF000, 0x0000⟩, ⟨36, 0x0000, 0x0000⟩]

/-- The number of the row an instruction belongs to (R120; 36 is the table's NOP row). -/
def Instr.rowNumber : Instr → Nat
  | .sys _ => 1
  | .cls => 2
  | .ret => 3
  | .jp _ => 4
  | .call _ => 5
  | .seByte _ _ => 6
  | .sneByte _ _ => 7
  | .seReg _ _ => 8
  | .ldByte _ _ => 9
  | .addByte _ _ => 10
  | .ldReg _ _ => 11
  | .or _ _ => 12
  | .and _ _ => 13
  | .xor _ _ => 14
  | .addReg _ _ => 15
  | .sub _ _ => 16
  | .shr _ _ => 17
  | .subn _ _ => 18
  | .shl _ _ => 19
  | .sneReg _ _ => 20
  | .ldI _ => 21
  | .jpV0 _ => 22
  | .rnd _ _ => 23
  | .drw _ _ _ => 24
  | .skp _ => 25
  | .sknp _ => 26
  | .ldVxDt _ => 27
  | .ldVxK _ => 28
  | .ldDtVx _ => 29
  | .ldStVx _ => 30
  | .addI _ => 31
  | .ldF _ => 32
  | .ldB _ => 33
  | .stRegs _ => 34
  | .ldRegs _ => 35
  | .nop _ => 36

/-! ### The host's view of the decoder -/

/-- What the decoder reads, under the default configuration, from the instruction whose bits are `w`
as spec/opcode_table.json numbers them: its two bytes in big-endian order are given to `decodeBytes`.
The core has no instruction of more than 16 bits (R90). -/
def decodeTableWord (nbits w : Nat) : Option Instr :=
  if nbits ≤ 16 then
    match decodeBytes Config.default (bytesOfWord (BitVec.ofNat 16 (w % 2 ^ nbits))) with
    | .ok (i, _) => some i
    | .error _ => none
  else none

end Sys2Proof
end

