-- ==== Sys2Proof/Machine/State.lean ====
section
/-! DEFINITION. The state of the core (spec/10_state.md R40), the reasons a step can stop, and the state
after reset (R37). Plain data throughout. -/

namespace Sys2Proof.Machine

/-- The causes of spec/60_exceptions.md R251, in the order of their codes 1 to 5. -/
inductive FaultCause where
  | fetchOutOfBounds
  | dataOutOfBounds
  | stackOverflow
  | stackUnderflow
  | keyIndexOutOfRange
deriving DecidableEq, Repr

/-- The fault record `{cause, pc, opcode, addr}` (R251). -/
structure FaultRecord where
  cause  : FaultCause
  pc     : Word
  opcode : Word
  addr   : Word
deriving DecidableEq, Repr

/-- Memory, as the list of the bytes that differ from the reset contents, in rising address order.
`Memory.wf` is the form, `Memory.background` what an unlisted address reads as (`Machine/Memory.lean`). -/
abbrev Memory := List Host.Cell

/-- The video buffer: `video[x][y]`, column `x` (0..63), row `y` (0..31) (R29, R40). -/
abbrev Video := Vector (Vector Pixel 32) 64

/-- R40's record, field by field, and after it three fields that are the model's own: `cfg`, the
parameters of R6, which nothing writes (log 1); `draw`, the random byte of the cycle in progress; and
`drawIndex`, how many draws `step` has taken (log 4). -/
structure State where
  mem       : Memory
  v         : Vector Byte 16
  i         : Word
  pc        : Word
  sp        : Fin 17
  stack     : Vector Word 16
  dt        : Byte
  st        : Byte
  video     : Video
  key       : Vector Bool 16
  opcode    : Word
  fault     : Option FaultRecord
  cfg       : Config
  draw      : Byte
  drawIndex : Nat
deriving DecidableEq, Repr

/-- Reasons a step stops outside the spec's own fault latch: none. Every failure the spec names is a
record latched in `State.fault`, which is a next state (R253, R254; log 5), so nobody raises a `Fault`,
and the type has no constructor. Safe: a type without values can hide no behaviour. -/
inductive Fault where
deriving DecidableEq, Repr

/-- Reasons an instruction has no meaning. -/
inductive Refusal where
  /-- Raised by `exec`'s arm of an instruction that is not modelled yet; no arm raises it now. Safe: the
  run stops, and nothing is claimed about it. -/
  | notModelled (mnemonic : String)
deriving DecidableEq, Repr

/-- The state after `reset()` and after construction (R37, R280, R281), under the default parameters
(log 2). Memory lists nothing: an unlisted address reads as its reset contents. The values of `draw` and
`drawIndex` are a DESIGN CHOICE that no statement rests on (log 4). -/
def State.reset : State where
  mem       := []
  v         := Vector.replicate 16 0
  i         := 0
  pc        := 0x200
  sp        := 0
  stack     := Vector.replicate 16 0
  dt        := 0
  st        := 0
  video     := Vector.replicate 64 (Vector.replicate 32 0)
  key       := Vector.replicate 16 false
  opcode    := 0
  fault     := none
  cfg       := Config.default
  draw      := 0
  drawIndex := 0

end Sys2Proof.Machine
end

