-- ==== Sys2Proof/Machine/Memory.lean ====
section
/-! DEFINITION. Memory (spec/20_memory.md): what an unlisted address reads as, one-byte reads and writes
in one canonical form, blocks of bytes, and the bounds policy of R66 and R67. -/

namespace Sys2Proof.Machine

/-- What an address that is not listed reads as: the reset contents (R37, R68), with the default
`FONTSET` at 0x050 to 0x09F and 0 elsewhere. Under another `FONTSET` the reset memory lists the bytes
that differ (`resetMemory`; log 13). -/
def Memory.background (a : Nat) : Byte :=
  if fontStart ≤ a then (defaultFontset.toList[a - fontStart]?).getD 0 else 0

/-- One byte (R65: a read changes nothing). -/
def Memory.read (m : Memory) (a : Nat) : Byte :=
  match m with
  | [] => Memory.background a
  | c :: rest => if c.1 = a then c.2 else Memory.read rest a

/-- The list without the address. -/
def Memory.erase (m : Memory) (a : Nat) : Memory :=
  m.filter fun c => c.1 != a

/-- The cell put before the first higher address. -/
def Memory.insert (a : Nat) (b : Byte) : Memory → Memory
  | [] => [(a, b)]
  | c :: rest => if a < c.1 then (a, b) :: c :: rest else c :: Memory.insert a b rest

/-- Writes one byte and changes no other (R65). The background's value is not listed. -/
def Memory.write (m : Memory) (a : Nat) (b : Byte) : Memory :=
  if b = Memory.background a then m.erase a else Memory.insert a b (m.erase a)

/-- The canonical form, from an address on: addresses strictly rising and inside the address space, no
entry equal to what an unlisted address reads as. -/
def Memory.wfFrom (low : Nat) : Memory → Bool
  | [] => true
  | c :: rest =>
    decide (low ≤ c.1) && decide (c.1 < memorySize) && c.2 != Memory.background c.1
      && Memory.wfFrom (c.1 + 1) rest

/-- The canonical form. -/
def Memory.wf (m : Memory) : Bool := Memory.wfFrom 0 m

/-- `Addr(a)` and `FetchAddr(a)` do not raise (R66, R67); `a` is an unbounded integer. -/
def inBounds (p : MemOobPolicy) (a : Nat) : Bool :=
  match p with
  | .fault => decide (a < memorySize)
  | .wrap12 => true

/-- The memory index `Addr(a)` and `FetchAddr(a)` give where they do not raise (R66, R67). -/
def memIndex (p : MemOobPolicy) (a : Nat) : Nat :=
  match p with
  | .fault => a
  | .wrap12 => a % memorySize

/-- The lowest address of `base .. base + count - 1` that fails the bounds check (R251, R255). -/
def firstOutOfBounds (p : MemOobPolicy) (base : Nat) : Nat → Option Nat
  | 0 => none
  | count + 1 => if inBounds p base then firstOutOfBounds p (base + 1) count else some base

/-- Writes bytes at ascending computed addresses from `a` (R62). -/
def Memory.writeBlock (p : MemOobPolicy) (m : Memory) (a : Nat) : List Byte → Memory
  | [] => m
  | b :: rest => Memory.writeBlock p (m.write (memIndex p a) b) (a + 1) rest

/-- Reads `count` bytes at ascending computed addresses from `a` (R62). -/
def Memory.readBlock (p : MemOobPolicy) (m : Memory) (a count : Nat) : List Byte :=
  (List.range count).map fun k => m.read (memIndex p (a + k))

end Sys2Proof.Machine
end

