-- ==== Sys2Proof/Machine/Ops.lean ====
section
/-! DEFINITION. The shared operations: registers, raising a fault and what a faulting cycle leaves
(spec/60_exceptions.md R250 to R255), the call stack, skips and jumps, the timers' fall, the keypad, and
the fetch. -/

namespace Sys2Proof.Machine

/-- What a meaning answers. -/
abbrev Result := Host.Outcome State Fault Refusal

/-! ### General registers (R20) -/

/-- `V[r]`. -/
def State.reg (s : State) (r : Reg) : Byte := s.v[r.val]

/-- `V[r] <- b`. -/
def State.setReg (s : State) (r : Reg) (b : Byte) : State := { s with v := s.v.set r.val b }

/-! ### Faults -/

/-- The code number of a cause (R251). -/
def FaultCause.code : FaultCause → Nat
  | .fetchOutOfBounds => 1
  | .dataOutOfBounds => 2
  | .stackOverflow => 3
  | .stackUnderflow => 4
  | .keyIndexOutOfRange => 5

/-- Latches a record and changes nothing else. -/
def State.latch (s : State) (r : FaultRecord) : State := { s with fault := some r }

/-- The record of a fault raised by the instruction in execution: `pc` is past the word, so the address
of the instruction is `pc - 2`, and `opcode` holds the fetched word (R102, R251). -/
def State.record (s : State) (cause : FaultCause) (addr : Word) : FaultRecord :=
  ⟨cause, s.pc - 2, s.opcode, addr⟩

/-- `raise Cause(addr)` inside an instruction (R252): the instruction's effect is to latch the record
and nothing more. The rest of R253, taking the fetch back, is `settle`'s. -/
def raise (cause : FaultCause) (addr : Word) (s : State) : Result :=
  .next (s.latch (s.record cause addr))

/-- A timer's fall by 1, clamped at 0 (R260). -/
def timerTick (b : Byte) : Byte := if 0 < b.toNat then b - 1 else b

/-- Both timers fall (R260). -/
def State.tick (s : State) : State := { s with dt := timerTick s.dt, st := timerTick s.st }

/-- The end of a cycle that began in `s0` and whose instruction left `t`: where the instruction raised
nothing the timers fall (R260); where it raised, the state is `s0` with the record latched (R253). -/
def settle (s0 t : State) : State :=
  match t.fault with
  | none => t.tick
  | some r => s0.latch r

/-! ### Control transfer -/

/-- `Skip` (R131): not masked. -/
def State.skip (s : State) : State := { s with pc := s.pc + 2 }

/-- A skip that is taken when the condition holds. -/
def State.skipIf (s : State) (taken : Bool) : State := if taken then s.skip else s

/-- `Target(t) = t mod 0x1000` (R130). -/
def target (t : Word) : Word := t &&& 0x0FFF

/-- `pc <- Target(t)`. -/
def State.jumpTo (s : State) (t : Word) : State := { s with pc := target t }

/-- `stack[j]`. -/
def State.entry (s : State) (j : Fin 16) : Word := s.stack[j.val]

/-- Pushes the pc, or raises `StackOverflow` when all 16 entries are in use (R25, R134). `after` is what
the instruction goes on to do. -/
def push (after : State → State) (s : State) : Result :=
  if h : s.sp.val < 16 then
    .next (after { s with stack := s.stack.set s.sp.val s.pc, sp := ⟨s.sp.val + 1, by omega⟩ })
  else raise .stackOverflow 0 s

/-- Pops an entry and goes on with it, or raises `StackUnderflow` when no entry is in use. The entry is
not cleared (R25, R132). -/
def pop (after : Word → State → State) (s : State) : Result :=
  if h : 0 < s.sp.val then
    .next (after (s.stack[s.sp.val - 1]'(by omega)) { s with sp := ⟨s.sp.val - 1, by omega⟩ })
  else raise .stackUnderflow 0 s

/-! ### Data memory through I (R191) -/

/-- `I + k`, an unbounded integer. -/
def State.dataAddr (s : State) (k : Nat) : Nat := s.i.toNat + k

/-- The memory index of the k-th byte an instruction touches, `Addr(I + k)`. -/
def State.dataIndex (s : State) (k : Nat) : Nat := memIndex s.cfg.memOob (s.dataAddr k)

/-- The k-th data byte, `mem[Addr(I + k)]`. -/
def State.dataByte (s : State) (k : Nat) : Byte := s.mem.read (s.dataIndex k)

/-- The lowest of the `count` data addresses that fails the bounds check. -/
def State.dataFault (s : State) (count : Nat) : Option Nat :=
  firstOutOfBounds s.cfg.memOob s.i.toNat count

/-- Checks all `count` data addresses before the instruction's effect (R11, R191), and raises
`DataOutOfBounds` at the lowest that fails. -/
def withData (count : Nat) (effect : State) (s : State) : Result :=
  match s.dataFault count with
  | some a => raise .dataOutOfBounds (BitVec.ofNat 16 a) s
  | none => .next effect

/-- Stores bytes at `I`, `I + 1`, and so on. -/
def State.storeData (s : State) (bytes : List Byte) : State :=
  { s with mem := s.mem.writeBlock s.cfg.memOob s.i.toNat bytes }

/-! ### Video (R29) -/

/-- `video[x][y]`. -/
def Video.at (d : Video) (x : Fin 64) (y : Fin 32) : Pixel := (d[x.val])[y.val]

/-- `video[x][y] <- p`. -/
def Video.put (d : Video) (x : Fin 64) (y : Fin 32) (p : Pixel) : Video :=
  d.set x.val ((d[x.val]).set y.val p)

/-- All pixels 0. -/
def Video.blank : Video := Vector.replicate 64 (Vector.replicate 32 0)

/-! ### Keypad (R230, R235) -/

/-- `key[k]`. -/
def State.pressed (s : State) (k : Fin 16) : Bool := s.key[k.val]

/-- `Pressed(v)` (R230); `none` is `raise KeyIndexOutOfRange`. -/
def State.keyTest (s : State) (v : Byte) : Option Bool :=
  if h : v.toNat < 16 then some (s.pressed ⟨v.toNat, h⟩)
  else
    match s.cfg.keyOob with
    | .fault => none
    | .notPressed => some false
    | .lowNibble => some (s.pressed ⟨v.toNat % 16, Nat.mod_lt _ (by omega)⟩)

/-- The lowest pressed key (R234, R235). -/
def State.firstKey (s : State) : Option (Fin 16) := (List.finRange 16).find? s.pressed

/-! ### Fetch (R100 to R102) -/

/-- The fetch's first address that fails the bounds check, of `pc` and `pc + 1` (R67, R101). -/
def State.fetchFault (s : State) : Option Nat := firstOutOfBounds s.cfg.memOob s.pc.toNat 2

/-- The word at the pc, big-endian (R61). -/
def State.fetchWord (s : State) : Word :=
  wordOfBytes (s.mem.read (memIndex s.cfg.memOob s.pc.toNat))
    (s.mem.read (memIndex s.cfg.memOob (s.pc.toNat + 1)))

/-- After a fetch of the word `w` in the cycle whose draw is `r`: `opcode` holds `w`, the pc is past it
(R102), and `RandomByte()` is `r` (R178). -/
def State.fetched (s : State) (r : Byte) (w : Word) : State :=
  { s with opcode := w, pc := s.pc + 2, draw := r, drawIndex := s.drawIndex + 1 }

/-- The record of a failed fetch at the address: no word was fetched (R251). -/
def State.fetchRecord (s : State) (addr : Nat) : FaultRecord :=
  ⟨.fetchOutOfBounds, s.pc, 0, BitVec.ofNat 16 addr⟩

end Sys2Proof.Machine
end

