-- ==== Sys2Proof/Machine/Operands.lean ====
section
/-! DEFINITION. The operand forms: what an instruction computes from its fields and the registers before
it writes (spec/30_encoding.md R93, R94). -/

namespace Sys2Proof.Machine

/-- `zext_16(nnn)` (R93). -/
def addressOf (nnn : Addr12) : Word := zext16 nnn

/-- The glyph address of Fx29, `0x050 + 5 * V[x]`, with no reduction of `V[x]` (R193). -/
def glyphAddress (b : Byte) : Word := BitVec.ofNat 16 (fontStart + 5 * b.toNat)

/-- The decimal digits of a byte, hundreds first (R194). -/
def decimalDigits (b : Byte) : List Byte :=
  [BitVec.ofNat 8 (b.toNat / 100), BitVec.ofNat 8 (b.toNat / 10 % 10), BitVec.ofNat 8 (b.toNat % 10)]

/-- `V[0] .. V[x]`, the bytes Fx55 stores (R195). -/
def State.regsUpTo (s : State) (x : Reg) : List Byte := (s.v.toList).take (x.val + 1)

/-- The registers after Fx65: `V[k]` for `k` in `0..x` from memory, the others as they were (R196). -/
def State.regsLoaded (s : State) (x : Reg) : Vector Byte 16 :=
  Vector.ofFn fun k : Reg => if k ≤ x then s.dataByte k.val else s.reg k

/-- The column a sprite starts at, `V[x] mod 64` (R211). -/
def startColumn (b : Byte) : Nat := b.toNat % 64

/-- The row a sprite starts at, `V[y] mod 32` (R211). -/
def startRow (b : Byte) : Nat := b.toNat % 32

/-- The column of sprite bit `7 - col`, wrapped on its own (R211). -/
def spriteColumn (x0 col : Nat) : Fin 64 := ⟨(x0 + col) % 64, Nat.mod_lt _ (by omega)⟩

/-- The screen row of sprite byte `row`, wrapped on its own (R211). -/
def spriteRow (y0 row : Nat) : Fin 32 := ⟨(y0 + row) % 32, Nat.mod_lt _ (by omega)⟩

/-- The sprite pixel at column `col` of a sprite byte is set, `((b >> (7 - col)) & 1) = 1` (R212). -/
def spriteBit (b : Byte) (col : Nat) : Bool := b.getLsbD (7 - col)

end Sys2Proof.Machine
end

