-- ==== Sys2Proof/Machine/Flags.lean ====
section
/-! DEFINITION. What VF holds after the flag-writing instructions (spec/10_state.md R33), and the order
in which they read their operands and write VF and `V[x]` (spec/42_alu.md R166). -/

namespace Sys2Proof.Machine

/-- A flag as VF holds it, 1 or 0. -/
def flagByte (b : Bool) : Byte := if b then 1 else 0

/-- Carry out of bit 7 (R167). -/
def carryFlag (a b : Byte) : Byte := flagByte (decide (255 < a.toNat + b.toNat))

/-- No borrow in 8xy5, strict (R168). -/
def subFlag (a b : Byte) : Byte := flagByte (decide (b.toNat < a.toNat))

/-- No borrow in 8xy7, not strict (R170). -/
def subnFlag (a b : Byte) : Byte := flagByte (decide (a.toNat ≤ b.toNat))

/-- Bit 0 before a right shift (R169). -/
def shrFlag (a : Byte) : Byte := a &&& 1

/-- Bit 7 before a left shift (R171). -/
def shlFlag (a : Byte) : Byte := (a >>> 7) &&& 1

/-- VF first, then `V[x]`, both from operands read before either write. -/
def State.setFlagThenReg (s : State) (x : Reg) (flag result : Byte) : State :=
  (s.setReg regF flag).setReg x result

/-- A flag-writing instruction on `V[x]` and `V[y]`, in the configured order: `Snapshot` computes the
result from the operands read at the start, `Sequential` reads them again after VF is written (R166). -/
def aluWithFlag (flag result : Byte → Byte → Byte) (x y : Reg) (s : State) : State :=
  let f := flag (s.reg x) (s.reg y)
  match s.cfg.aluOrder with
  | .snapshot => s.setFlagThenReg x f (result (s.reg x) (s.reg y))
  | .sequential =>
    let s1 := s.setReg regF f
    s1.setReg x (result (s1.reg x) (s1.reg y))

end Sys2Proof.Machine
end

