-- ==== Sys2Proof/Machine/Alu.lean ====
section
/-! DEFINITION. Register loads, arithmetic, logic, shifts and random (spec/42_alu.md). All arithmetic
wraps modulo 256. -/

namespace Sys2Proof.Machine

/-- 6xkk LD (R160). -/
def execLdByte (x : Reg) (kk : Byte) (s : State) : Result := .next (s.setReg x kk)

/-- 7xkk ADD, with no flag (R161). -/
def execAddByte (x : Reg) (kk : Byte) (s : State) : Result := .next (s.setReg x (s.reg x + kk))

/-- 8xy0 LD (R162). -/
def execLdReg (x y : Reg) (s : State) : Result := .next (s.setReg x (s.reg y))

/-- 8xy1 OR (R163). -/
def execOr (x y : Reg) (s : State) : Result := .next (s.setReg x (s.reg x ||| s.reg y))

/-- 8xy2 AND (R164). -/
def execAnd (x y : Reg) (s : State) : Result := .next (s.setReg x (s.reg x &&& s.reg y))

/-- 8xy3 XOR (R165). -/
def execXor (x y : Reg) (s : State) : Result := .next (s.setReg x (s.reg x ^^^ s.reg y))

/-- 8xy4 ADD: the sum is taken before VF is written, under both orders (R166, R167). -/
def execAddReg (x y : Reg) (s : State) : Result :=
  .next (s.setFlagThenReg x (carryFlag (s.reg x) (s.reg y)) (s.reg x + s.reg y))

/-- 8xy5 SUB (R168). -/
def execSub (x y : Reg) (s : State) : Result :=
  .next (aluWithFlag subFlag (fun a b => a - b) x y s)

/-- 8xy6 SHR: `V[y]` is never read (R169). -/
def execShr (x y : Reg) (s : State) : Result :=
  .next (aluWithFlag (fun a _ => shrFlag a) (fun a _ => a >>> 1) x y s)

/-- 8xy7 SUBN (R170). -/
def execSubn (x y : Reg) (s : State) : Result :=
  .next (aluWithFlag subnFlag (fun a b => b - a) x y s)

/-- 8xyE SHL: `V[y]` is never read (R171). -/
def execShl (x y : Reg) (s : State) : Result :=
  .next (aluWithFlag (fun a _ => shlFlag a) (fun a _ => a <<< 1) x y s)

/-- Cxkk RND: the draw of this cycle, masked (R177, R178). -/
def execRnd (x : Reg) (kk : Byte) (s : State) : Result := .next (s.setReg x (s.draw &&& kk))

end Sys2Proof.Machine
end

