-- ==== Sys2Proof/Machine/Control.lean ====
section
/-! DEFINITION. Control transfer (spec/41_control.md). Every meaning runs after the fetch has moved the
pc past the word (R102). -/

namespace Sys2Proof.Machine

/-- 00EE RET (R132). -/
def execRet (s : State) : Result := pop (fun a t => t.jumpTo a) s

/-- 1nnn JP (R133). -/
def execJp (nnn : Addr12) (s : State) : Result := .next (s.jumpTo (addressOf nnn))

/-- 2nnn CALL: pushes the address after the call (R134). -/
def execCall (nnn : Addr12) (s : State) : Result := push (fun t => t.jumpTo (addressOf nnn)) s

/-- 3xkk SE (R135). -/
def execSeByte (x : Reg) (kk : Byte) (s : State) : Result := .next (s.skipIf (s.reg x == kk))

/-- 4xkk SNE (R136). -/
def execSneByte (x : Reg) (kk : Byte) (s : State) : Result := .next (s.skipIf (s.reg x != kk))

/-- 5xy0 SE (R137). -/
def execSeReg (x y : Reg) (s : State) : Result := .next (s.skipIf (s.reg x == s.reg y))

/-- 9xy0 SNE (R138). -/
def execSneReg (x y : Reg) (s : State) : Result := .next (s.skipIf (s.reg x != s.reg y))

/-- Bnnn JP V0: the register is `V[0]` whatever `w[11:8]` holds (R139). -/
def execJpV0 (nnn : Addr12) (s : State) : Result :=
  .next (s.jumpTo (zext16 (s.reg 0) + addressOf nnn))

end Sys2Proof.Machine
end

