-- ==== Sys2Proof/Machine/Display.lean ====
section
/-! DEFINITION. The display (spec/44_display.md): clear, and the sprite draw as the two loops of R212. -/

namespace Sys2Proof.Machine

/-- The screen and the collision so far, while a sprite is drawn. -/
abbrev Canvas := Video × Bool

/-- One sprite pixel: a set pixel flips the screen pixel and collides where that was 1; a clear pixel
changes nothing (R212). -/
def drawPixel (px : Fin 64) (py : Fin 32) (set : Bool) (c : Canvas) : Canvas :=
  if set then (c.1.put px py (c.1.at px py ^^^ 1), c.2 || c.1.at px py == 1) else c

/-- The eight pixels of a sprite byte on screen row `(y0 + row) mod 32` (R212, the inner loop). -/
def drawRow (x0 y0 row : Nat) (b : Byte) (c : Canvas) : Canvas :=
  (List.range 8).foldl
    (fun c col => drawPixel (spriteColumn x0 col) (spriteRow y0 row) (spriteBit b col) c) c

/-- The rows of a sprite from `row` on (R212, the outer loop). -/
def drawRows (x0 y0 row : Nat) : List Byte → Canvas → Canvas
  | [], c => c
  | b :: rest, c => drawRows x0 y0 (row + 1) rest (drawRow x0 y0 row b c)

/-- The sprite's `n` bytes drawn at `(V[x] mod 64, V[y] mod 32)`, the coordinates read before VF is
cleared (R212, decision D6), and VF the collision. -/
def State.drawSprite (s : State) (x y : Reg) (n : Nat) : State :=
  let bytes := s.mem.readBlock s.cfg.memOob s.i.toNat n
  let c := drawRows (startColumn (s.reg x)) (startRow (s.reg y)) 0 bytes (s.video, false)
  { s with video := c.1 }.setReg regF (flagByte c.2)

/-- 00E0 CLS (R210). -/
def execCls (s : State) : Result := .next { s with video := Video.blank }

/-- Dxyn DRW: all addresses checked first (R212). -/
def execDrw (x y : Reg) (n : Fin 16) (s : State) : Result :=
  withData n.val (s.drawSprite x y n.val) s

end Sys2Proof.Machine
end

