-- ==== Sys2Proof/Machine/IndexMemory.lean ====
section
/-! DEFINITION. The index register and memory transfer (spec/43_index_memory.md). No memory instruction
changes I (R191). -/

namespace Sys2Proof.Machine

/-- Annn LD I (R190). -/
def execLdI (nnn : Addr12) (s : State) : Result := .next { s with i := addressOf nnn }

/-- Fx1E ADD I: modulo 2^16, no flag (R192). -/
def execAddI (x : Reg) (s : State) : Result := .next { s with i := s.i + zext16 (s.reg x) }

/-- Fx29 LD F (R193). -/
def execLdF (x : Reg) (s : State) : Result := .next { s with i := glyphAddress (s.reg x) }

/-- Fx33 LD B: three digits, all addresses checked first (R194). -/
def execLdB (x : Reg) (s : State) : Result :=
  withData 3 (s.storeData (decimalDigits (s.reg x))) s

/-- Fx55 LD [I], Vx: `x + 1` bytes (R195). -/
def execStRegs (x : Reg) (s : State) : Result :=
  withData (x.val + 1) (s.storeData (s.regsUpTo x)) s

/-- Fx65 LD Vx, [I]: `x + 1` bytes (R196). -/
def execLdRegs (x : Reg) (s : State) : Result :=
  withData (x.val + 1) { s with v := s.regsLoaded x } s

end Sys2Proof.Machine
end

