-- ==== Sys2Proof/Machine/KeypadTimer.lean ====
section
/-! DEFINITION. Keypad and timer instructions (spec/45_keypad_timers.md). -/

namespace Sys2Proof.Machine

/-- A skip on the test of the key `V[x]`, or `KeyIndexOutOfRange` with that number (R230). -/
def skipOnKey (wanted : Bool) (x : Reg) (s : State) : Result :=
  match s.keyTest (s.reg x) with
  | some down => .next (s.skipIf (down == wanted))
  | none => raise .keyIndexOutOfRange (zext16 (s.reg x)) s

/-- Ex9E SKP (R231). -/
def execSkp (x : Reg) (s : State) : Result := skipOnKey true x s

/-- ExA1 SKNP (R232). -/
def execSknp (x : Reg) (s : State) : Result := skipOnKey false x s

/-- Fx07 LD Vx, DT: before this cycle's decrement (R233). -/
def execLdVxDt (x : Reg) (s : State) : Result := .next (s.setReg x s.dt)

/-- Fx0A LD Vx, K: the lowest pressed key, or the pc back to this instruction (R234 to R236). -/
def execLdVxK (x : Reg) (s : State) : Result :=
  match s.firstKey with
  | some k => .next (s.setReg x (BitVec.ofNat 8 k.val))
  | none => .next { s with pc := s.pc - 2 }

/-- Fx15 LD DT, Vx (R237). -/
def execLdDtVx (x : Reg) (s : State) : Result := .next { s with dt := s.reg x }

/-- Fx18 LD ST, Vx (R238). -/
def execLdStVx (x : Reg) (s : State) : Result := .next { s with st := s.reg x }

end Sys2Proof.Machine
end

