-- ==== Sys2Proof/Machine/System.lean ====
section
/-! DEFINITION. The words that do nothing (spec/30_encoding.md R110): SYS and every unrecognised word. -/

namespace Sys2Proof.Machine

/-- 0nnn SYS, a no-op on this core (R110). -/
def execSys (_nnn : Addr12) (s : State) : Result := .next s

/-- An unrecognised word: no register, memory, stack, video or keypad change (R110). -/
def execNop (_w : Word) (s : State) : Result := .next s

end Sys2Proof.Machine
end

