-- ==== Sys2Proof/Machine/Cycle.lean ====
section
/-! DEFINITION. The port `cycle(r)` (spec/30_encoding.md R100). -/

namespace Sys2Proof.Machine

/-- Decodes and executes the word `w` that a fetch in the state `s0` gave, and ends the cycle. -/
def runWord (r : Byte) (w : Word) (s0 : State) : Result :=
  match exec (decodeWord s0.cfg w) (s0.fetched r w) with
  | .next t => .next (settle s0 t)
  | .fault f => .fault f
  | .refused q => .refused q

/-- `cycle(r)` (R100): nothing while a fault is latched (R254); else the fetch, which may fault (R101),
and the instruction. -/
def cycle (r : Byte) (s : State) : Result :=
  match s.fault with
  | some _ => .next s
  | none =>
    match s.fetchFault with
    | some a => .next (s.latch (s.fetchRecord a))
    | none => runWord r s.fetchWord s

/-- The state with the word stored at the pc, where the next fetch reads it. Where a fetch at the pc
would fault there is no such place, and nothing is stored (log 14). -/
def State.placeWord (s : State) (w : Word) : State :=
  match s.fetchFault with
  | some _ => s
  | none => { s with mem := s.mem.writeBlock s.cfg.memOob s.pc.toNat (bytesOfWord w) }

end Sys2Proof.Machine
end

