-- ==== Sys2Proof/Machine/Step.lean ====
section
/-! DEFINITION. One step: the port `cycle` with a free draw (spec/42_alu.md R178; log 4). -/

namespace Sys2Proof.Machine

/-- One `cycle(r)` whose random byte `r` is a free value, a new one for each completed cycle. -/
def step (s : State) : Host.Outcome State Fault Refusal := cycle (Config.randomByte s.drawIndex) s

/-- The state with the instruction whose bits are `w`, as spec/opcode_table.json numbers them, stored
where `step` fetches next. It stands for `loadProgram` (log 14). -/
def State.withFetchWord (s : State) (nbits w : Nat) : State :=
  s.placeWord (BitVec.ofNat 16 (w % 2 ^ nbits))

end Sys2Proof.Machine
end

