-- ==== Sys2Proof/Machine/Ports.lean ====
section
/-! DEFINITION. The ports of spec/10_state.md R50: `reset`, `loadProgram`, `cycle(r)`, `setKey`, and the
read-only views; and a run as a list of host operations (R51, spec/70_reset_and_hazards.md R292). -/

namespace Sys2Proof.Machine

/-- Memory after reset: all zero, then `FONTSET` at 0x050 (R280). -/
def resetMemory (font : Vector Byte fontSize) : Memory :=
  Memory.writeBlock .fault [] fontStart font.toList

/-- `reset()` (R280): reads no core state. The configuration is not state (R40), and the random source is
not core state, so both stay (R37; log 15). -/
def State.resetPort (s : State) : State :=
  { State.reset with mem := resetMemory s.cfg.fontset, cfg := s.cfg, draw := s.draw, drawIndex := s.drawIndex }

/-- `setKey(k, b)` (R50, R52). -/
def State.setKey (s : State) (k : Fin 16) (b : Bool) : State := { s with key := s.key.set k.val b }

/-- `loadProgram(bytes)` (R283, R284): `none` is `LoadTooLarge`. -/
def State.loadProgram (s : State) (bytes : List Byte) : Option State :=
  if bytes.length ≤ maxProgram then some { s with mem := s.mem.writeBlock .fault programStart bytes }
  else none

/-- The video view (R53): the 64 x 32 grid of 0/1 bytes at the flat index `y*64 + x` (R29, decision
D20). -/
def State.videoView (s : State) : List Byte :=
  (List.finRange 32).flatMap fun y => (List.finRange 64).map fun x => (s.video.at x y).setWidth 8

/-- What introspection reads (R54). -/
structure Introspection where
  v      : Vector Byte 16
  pc     : Word
  sp     : Fin 17
  i      : Word
  dt     : Byte
  st     : Byte
  opcode : Word
  stack  : Vector Word 16
  fault  : Option FaultRecord
deriving DecidableEq, Repr

/-- Introspection, a read with no effect (R54). -/
def State.introspect (s : State) : Introspection :=
  ⟨s.v, s.pc, s.sp, s.i, s.dt, s.st, s.opcode, s.stack, s.fault⟩

/-- The host operations that change state (R50). -/
inductive HostOp where
  | reset
  | loadProgram (bytes : List Byte)
  | cycle (r : Byte)
  | setKey (k : Fin 16) (b : Bool)
deriving DecidableEq, Repr

/-- What an operation returns (R50). -/
inductive Reply where
  | none
  | ok
  | loadTooLarge
  | faulted (r : FaultRecord)
deriving DecidableEq, Repr

/-- What `cycle` returns when it leaves the state: `ok`, or the latched record (R100, R254). -/
def State.cycleReply (t : State) : Reply :=
  match t.fault with
  | .none => .ok
  | some r => .faulted r

/-- One host operation and its result. -/
def HostOp.run (op : HostOp) (s : State) : Host.Outcome (State × Reply) Fault Refusal :=
  match op with
  | .reset => .next (s.resetPort, .none)
  | .setKey k b => .next (s.setKey k b, .none)
  | .loadProgram bytes =>
    match s.loadProgram bytes with
    | some t => .next (t, .ok)
    | Option.none => .next (s, .loadTooLarge)
  | .cycle r =>
    match Machine.cycle r s with
    | .next t => .next (t, t.cycleReply)
    | .fault f => .fault f
    | .refused q => .refused q

/-- A sequence of host operations, one after another (R51). -/
def hostRun : List HostOp → State → Host.Outcome State Fault Refusal
  | [], s => .next s
  | op :: rest, s =>
    match op.run s with
    | .next (t, _) => hostRun rest t
    | .fault f => .fault f
    | .refused q => .refused q

end Sys2Proof.Machine
end

