-- ==== Sys2Proof/Safety.lean ====
section
/-! DEFINITION. The terms claims use: what a part of the state keeps, which registers an instruction reads
and writes (spec/10_state.md R22), which faults the spec lists (spec/60_exceptions.md R251), the invariant
of the machine, and the halt loop (spec/70_reset_and_hazards.md R292). -/

namespace Sys2Proof.Machine

/-! ### Frames -/

/-- The parts of the state other than the general registers and the bytes of memory. -/
inductive Part where
  | index
  | pc
  | stackPointer
  | stackEntries
  | delayTimer
  | soundTimer
  | video
  | keypad
  | opcode
  | latch
  | config
  | draws
deriving DecidableEq, Repr

/-- Every part. -/
def Part.all : List Part :=
  [.index, .pc, .stackPointer, .stackEntries, .delayTimer, .soundTimer, .video, .keypad, .opcode, .latch,
   .config, .draws]

/-- The part holds in `t` what it holds in `s`. -/
def Part.same (s t : State) : Part → Prop
  | .index => t.i = s.i
  | .pc => t.pc = s.pc
  | .stackPointer => t.sp = s.sp
  | .stackEntries => ∀ j, t.entry j = s.entry j
  | .delayTimer => t.dt = s.dt
  | .soundTimer => t.st = s.st
  | .video => ∀ x y, t.video.at x y = s.video.at x y
  | .keypad => ∀ k, t.pressed k = s.pressed k
  | .opcode => t.opcode = s.opcode
  | .latch => t.fault = s.fault
  | .config => t.cfg = s.cfg
  | .draws => t.draw = s.draw ∧ t.drawIndex = s.drawIndex

/-- From `s` to `t` every part not in `parts`, every register not in `regs` and every byte of memory at
an address not in `addrs` is unchanged. -/
def KeepsAllBut (parts : List Part) (regs : List Reg) (addrs : List Nat) (s t : State) : Prop :=
  (∀ p, p ∉ parts → p.same s t) ∧ (∀ r, r ∉ regs → t.reg r = s.reg r)
    ∧ ∀ a, a ∉ addrs → t.mem.read a = s.mem.read a

/-- The memory indices of the `count` data bytes an instruction touches, `Addr(I) ..` (R191). -/
def State.dataIndices (s : State) (count : Nat) : List Nat := (List.range count).map s.dataIndex

/-- All `count` data addresses of an instruction pass the bounds check (R66, R191). -/
def State.DataInBounds (s : State) (count : Nat) : Prop :=
  s.cfg.memOob = .wrap12 ∨ s.i.toNat + count ≤ memorySize ∨ count = 0

/-- Screen pixel `(px, py)` is under a set pixel of the sprite of `n` bytes at I, drawn at
`(V[x] mod 64, V[y] mod 32)` (R211). -/
def State.SpriteCovers (s : State) (x y : Reg) (n : Nat) (px : Fin 64) (py : Fin 32) : Prop :=
  ∃ row < n, ∃ col < 8,
    px.val = ((s.reg x).toNat % 64 + col) % 64 ∧ py.val = ((s.reg y).toNat % 32 + row) % 32
      ∧ (s.dataByte row).getLsbD (7 - col) = true

/-! ### Register access (R22) -/

/-- The "Reads" column of R22's table. -/
def readsOf : Instr → List Reg
  | .sys _ => []
  | .cls => []
  | .ret => []
  | .jp _ => []
  | .call _ => []
  | .seByte x _ => [x]
  | .sneByte x _ => [x]
  | .seReg x y => [x, y]
  | .ldByte _ _ => []
  | .addByte x _ => [x]
  | .ldReg _ y => [y]
  | .or x y => [x, y]
  | .and x y => [x, y]
  | .xor x y => [x, y]
  | .addReg x y => [x, y]
  | .sub x y => [x, y]
  | .shr x _ => [x]
  | .subn x y => [x, y]
  | .shl x _ => [x]
  | .sneReg x y => [x, y]
  | .ldI _ => []
  | .jpV0 _ => [0]
  | .rnd _ _ => []
  | .drw x y _ => [x, y]
  | .skp x => [x]
  | .sknp x => [x]
  | .ldVxDt _ => []
  | .ldVxK _ => []
  | .ldDtVx x => [x]
  | .ldStVx x => [x]
  | .addI x => [x]
  | .ldF x => [x]
  | .ldB x => [x]
  | .stRegs x => (List.finRange 16).filter (· ≤ x)
  | .ldRegs _ => []
  | .nop _ => []

/-- The "Writes" column of R22's table. -/
def writesOf : Instr → List Reg
  | .sys _ => []
  | .cls => []
  | .ret => []
  | .jp _ => []
  | .call _ => []
  | .seByte _ _ => []
  | .sneByte _ _ => []
  | .seReg _ _ => []
  | .ldByte x _ => [x]
  | .addByte x _ => [x]
  | .ldReg x _ => [x]
  | .or x _ => [x]
  | .and x _ => [x]
  | .xor x _ => [x]
  | .addReg x _ => [regF, x]
  | .sub x _ => [regF, x]
  | .shr x _ => [regF, x]
  | .subn x _ => [regF, x]
  | .shl x _ => [regF, x]
  | .sneReg _ _ => []
  | .ldI _ => []
  | .jpV0 _ => []
  | .rnd x _ => [x]
  | .drw _ _ _ => [regF]
  | .skp _ => []
  | .sknp _ => []
  | .ldVxDt x => [x]
  | .ldVxK x => [x]
  | .ldDtVx _ => []
  | .ldStVx _ => []
  | .addI _ => []
  | .ldF _ => []
  | .ldB _ => []
  | .stRegs _ => []
  | .ldRegs x => (List.finRange 16).filter (· ≤ x)
  | .nop _ => []

/-! ### The listed faults (R251) -/

/-- Row 2 of R251 for an instruction that touches `count` bytes: some byte address `I + k` is above
0xFFF, and `addr` is the lowest such. -/
def State.listedDataFault (s : State) (count : Nat) : Option (FaultCause × Word) :=
  if s.cfg.memOob = .fault ∧ 0 < count ∧ 0x1000 < s.i.toNat + count then
    some (.dataOutOfBounds, if s.i.toNat ≤ 0xFFF then 0x1000 else s.i)
  else none

/-- Row 5 of R251. -/
def State.listedKeyFault (s : State) (x : Reg) : Option (FaultCause × Word) :=
  if s.cfg.keyOob = .fault ∧ 0xF < (s.reg x).toNat then
    some (.keyIndexOutOfRange, zext16 (s.reg x))
  else none

/-- Rows 2 to 5 of R251: the cause and `addr` of the fault an instruction raises, if any. -/
def listedFault (i : Instr) (s : State) : Option (FaultCause × Word) :=
  match i with
  | .call _ => if s.sp = 16 then some (.stackOverflow, 0) else none
  | .ret => if s.sp = 0 then some (.stackUnderflow, 0) else none
  | .drw _ _ n => s.listedDataFault n.val
  | .ldB _ => s.listedDataFault 3
  | .stRegs x => s.listedDataFault (x.val + 1)
  | .ldRegs x => s.listedDataFault (x.val + 1)
  | .skp x => s.listedKeyFault x
  | .sknp x => s.listedKeyFault x
  | .sys _ => none
  | .cls => none
  | .jp _ => none
  | .seByte _ _ => none
  | .sneByte _ _ => none
  | .seReg _ _ => none
  | .ldByte _ _ => none
  | .addByte _ _ => none
  | .ldReg _ _ => none
  | .or _ _ => none
  | .and _ _ => none
  | .xor _ _ => none
  | .addReg _ _ => none
  | .sub _ _ => none
  | .shr _ _ => none
  | .subn _ _ => none
  | .shl _ _ => none
  | .sneReg _ _ => none
  | .ldI _ => none
  | .jpV0 _ => none
  | .rnd _ _ => none
  | .ldVxDt _ => none
  | .ldVxK _ => none
  | .ldDtVx _ => none
  | .ldStVx _ => none
  | .addI _ => none
  | .ldF _ => none
  | .nop _ => none

/-- The record R251 gives the next cycle of a state with no fault latched, if that cycle faults: row 1
for a fetch that needs a byte above 0xFFF, else the fault of the fetched instruction. -/
def State.listedRecord (s : State) : Option FaultRecord :=
  if s.cfg.memOob = .fault ∧ 0xFFE < s.pc.toNat then
    some ⟨.fetchOutOfBounds, s.pc, 0, if s.pc = 0xFFF then 0x1000 else s.pc⟩
  else
    (listedFault (decodeWord s.cfg s.fetchWord) s).map fun (cause, addr) =>
      ⟨cause, s.pc, s.fetchWord, addr⟩

/-- A cycle from `s` whose instruction is `i` is rolled back and latches this fault (R100, R253). -/
def State.CycleFaults (s : State) (i : Instr) (cause : FaultCause) (addr : Word) : Prop :=
  ∀ r : Byte, s.fault = none → s.fetchFault = none → decodeWord s.cfg s.fetchWord = i →
    cycle r s = .next (s.latch ⟨cause, s.pc, s.fetchWord, addr⟩)

/-! ### The invariant -/

/-- The latched record describes the state it stands in, which is the state the faulting cycle began in
(R251, R253): its pc is the pc, and either the fetch there fails or its opcode is an instruction that
raises that fault there. -/
def FaultRecord.describes (r : FaultRecord) (s : State) : Prop :=
  r.pc = s.pc ∧
    ((s.cfg.memOob = .fault ∧ 0xFFE < s.pc.toNat ∧
        r = ⟨.fetchOutOfBounds, s.pc, 0, if s.pc = 0xFFF then 0x1000 else s.pc⟩)
      ∨ listedFault (decodeWord s.cfg r.opcode) s = some (r.cause, r.addr))

/-- Memory is in its canonical form, and a latched record describes the state. -/
def State.Inv (s : State) : Prop :=
  s.mem.wf = true ∧ ∀ r, s.fault = some r → r.describes s

/-! ### Runs -/

/-- No fault is latched: what R254 has a claim about a program take as its premise. -/
def State.running (s : State) : Bool := s.fault.isNone

/-- The word `1hhh` stands at the address `h`, and the pc is there: R292's condition on `mem[h]` and
`mem[h + 1]`. DESIGN CHOICE: at `h = 0xFFF`, where there is no byte `mem[h + 1]`, the index is not wrapped, so a
canonical memory holds no halt loop there, under `Wrap12` either (log 17). -/
def State.atHaltLoop (s : State) (h : Addr12) : Prop :=
  s.pc = zext16 h ∧ s.mem.read h.toNat = BitVec.ofNat 8 (0x10 ||| h.toNat >>> 8)
    ∧ s.mem.read (h.toNat + 1) = h.setWidth 8

end Sys2Proof.Machine
end

