-- ==== Sys2Proof/Certificates/Slice0/Obligations.lean ====
section
/-! DEFINITION. The statements for the provers. Each docstring names the rule of spec/ it formalises;
OBLIGATIONS.json lists them. "Next" is always the state `exec` leaves, in which the pc is already past the
word (R102, R104); the statements about `cycle` and `step` say what is around it. -/

open Sys2Proof Sys2Proof.Machine

/-! ### Encoding and decoding -/

/-- R120's patterns, one word a family, bit by bit from the opcode map: 00E0, 1234, 2210, 3312, 6A3C, 8014,
801E, A200, B300, C30F, D125, E39E, F20A, F255, and the no-ops 0123 and 8008. -/
def Obligations.WordsOfEachFamilyDecode : Prop :=
  ([0x00E0, 0x1234, 0x2210, 0x3312, 0x6A3C, 0x8014, 0x801E, 0xA200, 0xB300, 0xC30F, 0xD125, 0xE39E, 0xF20A,
      0xF255, 0x0123, 0x8008].map (decodeWord Config.default)) =
    [.cls, .jp 0x234, .call 0x210, .seByte 3 0x12, .ldByte 10 0x3C, .addReg 0 1, .shl 0 1, .ldI 0x200,
      .jpV0 0x300, .rnd 3 0x0F, .drw 1 2 5, .skp 3, .ldVxK 2, .stRegs 2, .sys 0x123, .nop 0x8008]

/-- R92 and R117: decoding the encoder's word of a well-formed instruction gives the instruction back, for
every instruction, operand and configuration. -/
def Obligations.DecodeOfEncodeIsTheInstruction : Prop :=
  ∀ (c : Config) (i : Instr), i.wellFormed c = true → decodeWord c (encode i) = i

/-- R105, R121: every word decodes, to a well-formed instruction; and no bit of the word is lost, except
the bits that the rows CLS, RET, SE Vx, Vy and SNE Vx, Vy (rows 2, 3, 8, 20) leave without meaning. -/
def Obligations.EveryWordDecodesWellFormedAndWhole : Prop :=
  ∀ (c : Config) (w : Word), (decodeWord c w).wellFormed c = true ∧
    ((decodeWord c w).rowNumber ∉ [2, 3, 8, 20] → encode (decodeWord c w) = w)

/-- R117 against R120: the decoder gives every word to the row of the opcode map that the table's mask,
match and priority give it to, under every configuration. -/
def Obligations.DecoderAgreesWithTheOpcodeMap : Prop :=
  ∀ (c : Config) (w : Word),
    ((opcodeRows c).find? fun r => r.covers w).map (·.number) = some (decodeWord c w).rowNumber

/-- spec/opcode_table.json row NOP's note: within one priority at most one row matches a word. Rows 1 and 36
alone have a lower priority. -/
def Obligations.OpcodeRowsDoNotOverlap : Prop :=
  ∀ (c : Config) (w : Word), ∀ r ∈ opcodeRows c, ∀ q ∈ opcodeRows c,
    r.number ∉ [1, 36] → q.number ∉ [1, 36] → r.covers w = true → q.covers w = true → r = q

/-- R112: group 0 under both values of `GROUP0_MATCH`. A word that is neither CLS nor RET is the row SYS,
which executes as NOP. -/
def Obligations.Group0DecodesByItsMatch : Prop :=
  ∀ (c : Config) (w : Word), fieldOp w = 0 →
    (c.group0 = .fullWord →
      (w = 0x00E0 → decodeWord c w = .cls) ∧ (w = 0x00EE → decodeWord c w = .ret)
        ∧ (w ≠ 0x00E0 → w ≠ 0x00EE → decodeWord c w = .sys (fieldNNN w)))
    ∧ (c.group0 = .lowByte →
      (fieldKK w = 0xE0 → decodeWord c w = .cls) ∧ (fieldKK w = 0xEE → decodeWord c w = .ret)
        ∧ (fieldKK w ≠ 0xE0 → fieldKK w ≠ 0xEE → decodeWord c w = .sys (fieldNNN w)))
    ∧ ∀ s, exec (.sys (fieldNNN w)) s = .next s

/-- R113: groups 5 and 9 ignore the low nibble, unless `STRICT_5_9` makes a word whose low nibble is not 0
a NOP. -/
def Obligations.Groups5And9IgnoreTheLowNibbleUnlessStrict : Prop :=
  ∀ (c : Config) (w : Word),
    ((c.strict59 = false ∨ fieldN w = 0) →
      (fieldOp w = 5 → decodeWord c w = .seReg (fieldX w) (fieldY w))
        ∧ (fieldOp w = 9 → decodeWord c w = .sneReg (fieldX w) (fieldY w)))
    ∧ (c.strict59 = true → fieldN w ≠ 0 → fieldOp w = 5 ∨ fieldOp w = 9 → decodeWord c w = .nop w)

/-- R114, R115, R116: the second selector of groups 8, E and F, and the NOPs it leaves. -/
def Obligations.Groups8EAndFSelectByTheirSecondField : Prop :=
  ∀ (c : Config) (w : Word),
    (fieldOp w = 8 →
      (fieldN w = 0 → decodeWord c w = .ldReg (fieldX w) (fieldY w))
        ∧ (fieldN w = 1 → decodeWord c w = .or (fieldX w) (fieldY w))
        ∧ (fieldN w = 2 → decodeWord c w = .and (fieldX w) (fieldY w))
        ∧ (fieldN w = 3 → decodeWord c w = .xor (fieldX w) (fieldY w))
        ∧ (fieldN w = 4 → decodeWord c w = .addReg (fieldX w) (fieldY w))
        ∧ (fieldN w = 5 → decodeWord c w = .sub (fieldX w) (fieldY w))
        ∧ (fieldN w = 6 → decodeWord c w = .shr (fieldX w) (fieldY w))
        ∧ (fieldN w = 7 → decodeWord c w = .subn (fieldX w) (fieldY w))
        ∧ (fieldN w = 0xE → decodeWord c w = .shl (fieldX w) (fieldY w))
        ∧ (fieldN w ∈ [8, 9, 0xA, 0xB, 0xC, 0xD, 0xF] → decodeWord c w = .nop w))
    ∧ (fieldOp w = 0xE →
      (fieldKK w = 0x9E → decodeWord c w = .skp (fieldX w))
        ∧ (fieldKK w = 0xA1 → decodeWord c w = .sknp (fieldX w))
        ∧ (fieldKK w ∉ [0x9E, 0xA1] → decodeWord c w = .nop w))
    ∧ (fieldOp w = 0xF →
      (fieldKK w = 0x07 → decodeWord c w = .ldVxDt (fieldX w))
        ∧ (fieldKK w = 0x0A → decodeWord c w = .ldVxK (fieldX w))
        ∧ (fieldKK w = 0x15 → decodeWord c w = .ldDtVx (fieldX w))
        ∧ (fieldKK w = 0x18 → decodeWord c w = .ldStVx (fieldX w))
        ∧ (fieldKK w = 0x1E → decodeWord c w = .addI (fieldX w))
        ∧ (fieldKK w = 0x29 → decodeWord c w = .ldF (fieldX w))
        ∧ (fieldKK w = 0x33 → decodeWord c w = .ldB (fieldX w))
        ∧ (fieldKK w = 0x55 → decodeWord c w = .stRegs (fieldX w))
        ∧ (fieldKK w = 0x65 → decodeWord c w = .ldRegs (fieldX w))
        ∧ (fieldKK w ∉ [0x07, 0x0A, 0x15, 0x18, 0x1E, 0x29, 0x33, 0x55, 0x65] → decodeWord c w = .nop w))

/-! ### The cycle -/

/-- R100, R102, R104: where the two bytes at the pc can be fetched and decode to `i`, a step runs `i` on the
state in which `opcode` holds the word and the pc is past it, with a free draw; where `i` raises nothing the
timers then fall, and where it raises, only its record stays. That the draw is the free value
`Config.randomByte` is the model's choice (log 4). -/
def Obligations.StepRunsTheDecodedInstruction : Prop :=
  ∀ (s : State) (hi lo : Byte) (i : Instr), s.fault = none →
    (s.cfg.memOob = .wrap12 ∨ s.pc.toNat + 1 ≤ 0xFFF) →
    s.mem.read (memIndex s.cfg.memOob s.pc.toNat) = hi →
    s.mem.read (memIndex s.cfg.memOob (s.pc.toNat + 1)) = lo →
    decodeBytes s.cfg [hi, lo] = .ok (i, []) →
    ∀ t, exec i { s with opcode := wordOfBytes hi lo, pc := s.pc + 2,
                         draw := Config.randomByte s.drawIndex, drawIndex := s.drawIndex + 1 } = .next t →
      (t.fault = none → step s = .next { t with dt := timerTick t.dt, st := timerTick t.st })
        ∧ ∀ f, t.fault = some f → step s = .next { s with fault := some f }

/-- R100: the port `cycle(r)` for every draw `r`: while a fault is latched it returns it and does nothing; a
failed fetch is reported and changes nothing but the latch; else the big-endian word is fetched, `opcode` and
the pc are written, the decoded instruction runs, and then both timers fall if above 0 and `ok` is returned,
or, where it raised, the state the cycle began in comes back with the record, which is returned. That a cycle
latches its draw in the field `draw` and counts it in `drawIndex`, the model's own fields, is the model's choice
(log 4). -/
def Obligations.CycleFetchesExecutesAndTicks : Prop :=
  ∀ (r : Byte) (s : State),
    (∀ f, s.fault = some f → (HostOp.cycle r).run s = .next (s, .faulted f))
    ∧ (∀ f, s.fault = none → s.cfg.memOob = .fault → 0xFFE < s.pc.toNat →
        f = (⟨.fetchOutOfBounds, s.pc, 0, if s.pc = 0xFFF then 0x1000 else s.pc⟩ : FaultRecord) →
        (HostOp.cycle r).run s = .next ({ s with fault := some f }, .faulted f))
    ∧ (s.fault = none → (s.cfg.memOob = .wrap12 ∨ s.pc.toNat + 1 ≤ 0xFFF) →
        ∃ (w : Word) (t : State),
          w.toNat = (s.mem.read (memIndex s.cfg.memOob s.pc.toNat)).toNat * 256
              + (s.mem.read (memIndex s.cfg.memOob (s.pc.toNat + 1))).toNat
          ∧ exec (decodeWord s.cfg w)
              { s with opcode := w, pc := s.pc + 2, draw := r, drawIndex := s.drawIndex + 1 } = .next t
          ∧ (t.fault = none →
              ∃ u, (HostOp.cycle r).run s = .next (u, .ok) ∧ u.dt.toNat = t.dt.toNat - 1
                ∧ u.st.toNat = t.st.toNat - 1 ∧ u = { t with dt := u.dt, st := u.st })
          ∧ ∀ f, t.fault = some f → f.pc = s.pc ∧ f.opcode = w
              ∧ (HostOp.cycle r).run s = .next ({ s with fault := some f }, .faulted f))

/-- R61, with the bounds check of R67: the fetch under both policies. Under `Fault` it faults exactly where the pc is 0xFFF or
above and then reads nothing; otherwise, and always under `Wrap12` with both addresses taken modulo 0x1000,
the word is the byte at the pc as its high byte and the byte after it as its low byte. -/
def Obligations.FetchIsBigEndianAndBoundsChecked : Prop :=
  ∀ s : State,
    (s.cfg.memOob = .fault →
      (s.fetchFault = none ↔ s.pc.toNat < 0xFFF)
        ∧ (s.pc.toNat < 0xFFF → s.fetchWord.toNat
            = (s.mem.read s.pc.toNat).toNat * 256 + (s.mem.read (s.pc.toNat + 1)).toNat)
        ∧ (∀ a, s.fetchFault = some a → a = if s.pc = 0xFFF then 0x1000 else s.pc.toNat))
    ∧ (s.cfg.memOob = .wrap12 →
      s.fetchFault = none ∧ s.fetchWord.toNat
        = (s.mem.read (s.pc.toNat % 0x1000)).toNat * 256 + (s.mem.read ((s.pc.toNat + 1) % 0x1000)).toNat)

/-- R253: a faulting cycle leaves the state it began in, with the record of R251 latched, whose pc is the pc. -/
def Obligations.FaultingCycleChangesOnlyTheLatch : Prop :=
  ∀ (r : Byte) (s t : State) (f : FaultRecord), s.fault = none → cycle r s = .next t → t.fault = some f →
    t = { s with fault := some f } ∧ s.listedRecord = some f ∧ f.pc = s.pc

/-- R254: while a fault is latched, `cycle(r)` and `step` change nothing and `cycle` returns the record
again; `setKey` and `loadProgram` still work and do not clear the latch; `reset()` clears it. -/
def Obligations.LatchedCoreWaitsForReset : Prop :=
  ∀ (s : State) (f : FaultRecord), s.fault = some f →
    (∀ r, (HostOp.cycle r).run s = .next (s, .faulted f)) ∧ step s = .next s
    ∧ (∀ k b, ∃ t, (HostOp.setKey k b).run s = .next (t, .none) ∧ t.pressed k = b ∧ t.fault = some f)
    ∧ (∀ bytes : List Byte, bytes.length ≤ 3584 →
        ∃ t, (HostOp.loadProgram bytes).run s = .next (t, .ok) ∧ t.fault = some f
          ∧ ∀ k (h : k < bytes.length), t.mem.read (0x200 + k) = bytes[k])
    ∧ ∃ t, HostOp.reset.run s = .next (t, .none) ∧ t.fault = none

/-- R251, rows 2 to 5, and R252: an instruction raises exactly the fault the table lists for it, and then
does nothing but latch the record; an instruction for which none is listed leaves the latch alone. No
instruction stops the machine. -/
def Obligations.InstructionsRaiseExactlyTheListedFaults : Prop :=
  ∀ (i : Instr) (s : State),
    (∀ cause addr, listedFault i s = some (cause, addr) →
      exec i s = .next { s with fault := some ⟨cause, s.pc - 2, s.opcode, addr⟩ })
    ∧ (listedFault i s = none → ∃ t, exec i s = .next t ∧ t.fault = s.fault)

/-- R251, all five rows, at the cycle: every cycle of a core with no fault latched completes, and it latches
exactly the record the table gives, or none: the fetch first, then the fetched instruction. The causes have
the table's codes. -/
def Obligations.CycleLatchesExactlyTheListedRecord : Prop :=
  (∀ (r : Byte) (s : State), s.fault = none → ∃ t, cycle r s = .next t ∧ t.fault = s.listedRecord)
    ∧ [FaultCause.fetchOutOfBounds, .dataOutOfBounds, .stackOverflow, .stackUnderflow,
        .keyIndexOutOfRange].map FaultCause.code = [1, 2, 3, 4, 5]

/-- R260: both timers fall by exactly 1, clamped at 0, in every completed cycle, after the instruction's own
write of one (Fx15, Fx18); a faulting cycle and a cycle called while faulted do not decrement. -/
def Obligations.TimersFallInEveryCompletedCycle : Prop :=
  ∀ (r : Byte) (s t : State), cycle r s = .next t →
    (s.fault = none → t.fault = none →
      (∀ x, decodeWord s.cfg s.fetchWord = .ldDtVx x → t.dt.toNat = (s.reg x).toNat - 1)
        ∧ ((∀ x, decodeWord s.cfg s.fetchWord ≠ .ldDtVx x) → t.dt.toNat = s.dt.toNat - 1)
        ∧ (∀ x, decodeWord s.cfg s.fetchWord = .ldStVx x → t.st.toNat = (s.reg x).toNat - 1)
        ∧ ((∀ x, decodeWord s.cfg s.fetchWord ≠ .ldStVx x) → t.st.toNat = s.st.toNat - 1))
    ∧ (t.fault ≠ none → t.dt = s.dt ∧ t.st = s.st)

/-- R261: a timer's value after k falls is `max(0, v - k)`. -/
def Obligations.TimerAfterKFalls : Prop :=
  ∀ (k : Nat) (b : Byte), (timerTick^[k] b).toNat = b.toNat - k

/-- R178: Cxkk stores the draw of its cycle, whatever byte it is, masked by kk; a cycle that does not execute
Cxkk ignores the draw (the model's own field `draw`, which remembers it, apart: log 4). -/
def Obligations.OnlyRndDependsOnTheDraw : Prop :=
  ∀ (r : Byte) (s : State), s.fault = none → s.fetchFault = none →
    (∀ x kk, decodeWord s.cfg s.fetchWord = .rnd x kk →
      ∃ t, cycle r s = .next t ∧ t.reg x = r &&& kk)
    ∧ ((∀ x kk, decodeWord s.cfg s.fetchWord ≠ .rnd x kk) →
      ∀ r', ∃ t t', cycle r s = .next t ∧ cycle r' s = .next t' ∧ t' = { t with draw := t'.draw })

/-- R110: the words of R121 decode to the rows SYS and NOP, which change nothing; their cycle ends 2 above the
word's address, with `opcode` holding the word and both timers decremented. -/
def Obligations.NoOpCycleOnlyAdvances : Prop :=
  (∀ c w, isUnrecognised c w = true → decodeWord c w = .nop w)
    ∧ (∀ c w, fieldOp w = 0 → isClsOrRet c (fieldNNN w) = false → decodeWord c w = .sys (fieldNNN w))
    ∧ (∀ nnn s, exec (.sys nnn) s = .next s) ∧ (∀ w s, exec (.nop w) s = .next s)
    ∧ ∀ (r : Byte) (s : State), s.fault = none → s.fetchFault = none →
      (decodeWord s.cfg s.fetchWord = .sys (fieldNNN s.fetchWord)
        ∨ decodeWord s.cfg s.fetchWord = .nop s.fetchWord) →
      ∃ t, cycle r s = .next t ∧ KeepsAllBut [.pc, .opcode, .delayTimer, .soundTimer, .draws] [] [] s t
        ∧ t.pc = s.pc + 2 ∧ t.opcode = s.fetchWord ∧ t.dt.toNat = s.dt.toNat - 1
        ∧ t.st.toNat = s.st.toNat - 1

/-- R75, R101 with the model's `withFetchWord` (log 14): a word stored at a pc that can be fetched from is
the word the next fetch reads, and nothing but its two bytes changes. -/
def Obligations.PlacedWordIsFetched : Prop :=
  ∀ (s : State) (w : Nat), w < 65536 → s.fetchFault = none →
    (s.withFetchWord 16 w).fetchWord.toNat = w
      ∧ KeepsAllBut [] [] [memIndex s.cfg.memOob s.pc.toNat, memIndex s.cfg.memOob (s.pc.toNat + 1)] s
          (s.withFetchWord 16 w)

/-! ### Control transfer -/

/-- R132: RET. -/
def Obligations.RetPopsTheMaskedReturnAddress : Prop :=
  (∀ c, decodeWord c 0x00EE = .ret)
    ∧ (∀ s, s.sp = 0 → exec .ret s = .next { s with fault := some ⟨.stackUnderflow, s.pc - 2, s.opcode, 0⟩ }
        ∧ s.CycleFaults .ret .stackUnderflow 0)
    ∧ ∀ (s : State) (j : Fin 16), s.sp.val = j.val + 1 →
      ∃ t, exec .ret s = .next t ∧ t.sp.val = j.val ∧ t.pc.toNat = (s.entry j).toNat % 0x1000
        ∧ KeepsAllBut [.pc, .stackPointer] [] [] s t

/-- R133, R139: JP, and JP V0, whose sum is masked to 12 bits. -/
def Obligations.JumpsGoToTheirMaskedTarget : Prop :=
  (∀ c w, (fieldOp w = 1 → decodeWord c w = .jp (fieldNNN w)) ∧ (fieldOp w = 0xB → decodeWord c w = .jpV0 (fieldNNN w)))
    ∧ ∀ (nnn : Addr12) (s : State),
      (∃ t, exec (.jp nnn) s = .next t ∧ t.pc.toNat = nnn.toNat ∧ KeepsAllBut [.pc] [] [] s t)
      ∧ ∃ t, exec (.jpV0 nnn) s = .next t ∧ t.pc.toNat = ((s.reg 0).toNat + nnn.toNat) % 0x1000
          ∧ KeepsAllBut [.pc] [] [] s t

/-- R134: CALL. -/
def Obligations.CallPushesTheNextAddressAndJumps : Prop :=
  (∀ c w, fieldOp w = 2 → decodeWord c w = .call (fieldNNN w))
    ∧ ∀ (nnn : Addr12) (s : State),
      (s.sp = 16 → exec (.call nnn) s = .next { s with fault := some ⟨.stackOverflow, s.pc - 2, s.opcode, 0⟩ }
        ∧ s.CycleFaults (.call nnn) .stackOverflow 0)
      ∧ ∀ j : Fin 16, s.sp.val = j.val →
        ∃ t, exec (.call nnn) s = .next t ∧ t.entry j = s.pc ∧ (∀ k, k ≠ j → t.entry k = s.entry k)
          ∧ t.sp.val = j.val + 1 ∧ t.pc.toNat = nnn.toNat
          ∧ KeepsAllBut [.pc, .stackPointer, .stackEntries] [] [] s t

/-- R135, R136 with R131: SE and SNE with a byte; a skip adds 2, modulo 2^16, to the advanced pc. -/
def Obligations.ByteSkipsCompareWithTheImmediate : Prop :=
  (∀ c w, (fieldOp w = 3 → decodeWord c w = .seByte (fieldX w) (fieldKK w))
      ∧ (fieldOp w = 4 → decodeWord c w = .sneByte (fieldX w) (fieldKK w)))
    ∧ ∀ (x : Reg) (kk : Byte) (s : State),
      (∃ t, exec (.seByte x kk) s = .next t ∧ KeepsAllBut [.pc] [] [] s t
        ∧ t.pc.toNat = if s.reg x = kk then (s.pc.toNat + 2) % 65536 else s.pc.toNat)
      ∧ ∃ t, exec (.sneByte x kk) s = .next t ∧ KeepsAllBut [.pc] [] [] s t
        ∧ t.pc.toNat = if s.reg x ≠ kk then (s.pc.toNat + 2) % 65536 else s.pc.toNat

/-- R137, R138 with R113: SE and SNE with a register. -/
def Obligations.RegisterSkipsCompareTwoRegisters : Prop :=
  (∀ (c : Config) w, (c.strict59 = false ∨ fieldN w = 0 →
        (fieldOp w = 5 → decodeWord c w = .seReg (fieldX w) (fieldY w))
          ∧ (fieldOp w = 9 → decodeWord c w = .sneReg (fieldX w) (fieldY w)))
      ∧ (c.strict59 = true → fieldN w ≠ 0 → fieldOp w = 5 ∨ fieldOp w = 9 → decodeWord c w = .nop w))
    ∧ ∀ (x y : Reg) (s : State),
      (∃ t, exec (.seReg x y) s = .next t ∧ KeepsAllBut [.pc] [] [] s t
        ∧ t.pc.toNat = if s.reg x = s.reg y then (s.pc.toNat + 2) % 65536 else s.pc.toNat)
      ∧ ∃ t, exec (.sneReg x y) s = .next t ∧ KeepsAllBut [.pc] [] [] s t
        ∧ t.pc.toNat = if s.reg x ≠ s.reg y then (s.pc.toNat + 2) % 65536 else s.pc.toNat

/-! ### Arithmetic, logic, random -/

/-- R160, R161: LD and ADD with a byte; ADD writes no carry. -/
def Obligations.ByteLoadAndAddWriteOnlyVx : Prop :=
  (∀ c w, (fieldOp w = 6 → decodeWord c w = .ldByte (fieldX w) (fieldKK w))
      ∧ (fieldOp w = 7 → decodeWord c w = .addByte (fieldX w) (fieldKK w)))
    ∧ ∀ (x : Reg) (kk : Byte) (s : State),
      (∃ t, exec (.ldByte x kk) s = .next t ∧ t.reg x = kk ∧ KeepsAllBut [] [x] [] s t)
      ∧ ∃ t, exec (.addByte x kk) s = .next t ∧ (t.reg x).toNat = ((s.reg x).toNat + kk.toNat) % 256
          ∧ KeepsAllBut [] [x] [] s t

/-- R162 to R165: copy, OR, AND and XOR; none writes a flag. -/
def Obligations.CopyAndLogicWriteOnlyVx : Prop :=
  (∀ c w, fieldOp w = 8 → (fieldN w = 0 → decodeWord c w = .ldReg (fieldX w) (fieldY w))
      ∧ (fieldN w = 1 → decodeWord c w = .or (fieldX w) (fieldY w))
      ∧ (fieldN w = 2 → decodeWord c w = .and (fieldX w) (fieldY w))
      ∧ (fieldN w = 3 → decodeWord c w = .xor (fieldX w) (fieldY w)))
    ∧ ∀ (x y : Reg) (s : State),
      (∃ t, exec (.ldReg x y) s = .next t ∧ t.reg x = s.reg y ∧ KeepsAllBut [] [x] [] s t)
      ∧ (∃ t, exec (.or x y) s = .next t ∧ t.reg x = s.reg x ||| s.reg y ∧ KeepsAllBut [] [x] [] s t)
      ∧ (∃ t, exec (.and x y) s = .next t ∧ t.reg x = s.reg x &&& s.reg y ∧ KeepsAllBut [] [x] [] s t)
      ∧ ∃ t, exec (.xor x y) s = .next t ∧ t.reg x = s.reg x ^^^ s.reg y ∧ KeepsAllBut [] [x] [] s t

/-- R167: ADD with carry out; where x is F, VF holds the sum and the carry is lost. -/
def Obligations.AddSetsTheCarry : Prop :=
  (∀ c w, fieldOp w = 8 → fieldN w = 4 → decodeWord c w = .addReg (fieldX w) (fieldY w))
    ∧ ∀ (x y : Reg) (s : State),
      ∃ t, exec (.addReg x y) s = .next t ∧ (t.reg x).toNat = ((s.reg x).toNat + (s.reg y).toNat) % 256
        ∧ (x ≠ regF → t.reg regF = if 255 < (s.reg x).toNat + (s.reg y).toNat then 1 else 0)
        ∧ KeepsAllBut [] [regF, x] [] s t

/-- R168, R170 with R166: SUB (strict flag) and SUBN (not strict), in both operand orders. Under `Sequential`
an operand that is VF is the flag just written. -/
def Obligations.SubtractionsSetTheNoBorrowFlag : Prop :=
  (∀ c w, fieldOp w = 8 → (fieldN w = 5 → decodeWord c w = .sub (fieldX w) (fieldY w))
      ∧ (fieldN w = 7 → decodeWord c w = .subn (fieldX w) (fieldY w)))
    ∧ ∀ (x y : Reg) (s : State) (flag : Byte),
      (flag = (if (s.reg y).toNat < (s.reg x).toNat then 1 else 0) →
        ∃ t, exec (.sub x y) s = .next t ∧ (x ≠ regF → t.reg regF = flag)
          ∧ (s.cfg.aluOrder = .snapshot →
              (t.reg x).toNat = ((s.reg x).toNat + 256 - (s.reg y).toNat) % 256)
          ∧ (s.cfg.aluOrder = .sequential →
              t.reg x = (if x = regF then flag else s.reg x) - (if y = regF then flag else s.reg y))
          ∧ KeepsAllBut [] [regF, x] [] s t)
      ∧ (flag = (if (s.reg x).toNat ≤ (s.reg y).toNat then 1 else 0) →
        ∃ t, exec (.subn x y) s = .next t ∧ (x ≠ regF → t.reg regF = flag)
          ∧ (s.cfg.aluOrder = .snapshot →
              (t.reg x).toNat = ((s.reg y).toNat + 256 - (s.reg x).toNat) % 256)
          ∧ (s.cfg.aluOrder = .sequential →
              t.reg x = (if y = regF then flag else s.reg y) - (if x = regF then flag else s.reg x))
          ∧ KeepsAllBut [] [regF, x] [] s t)

/-- R169, R171 with R166: SHR and SHL of V[x], whatever y is, in both operand orders. -/
def Obligations.ShiftsMoveTheLostBitToVF : Prop :=
  (∀ c w, fieldOp w = 8 → (fieldN w = 6 → decodeWord c w = .shr (fieldX w) (fieldY w))
      ∧ (fieldN w = 0xE → decodeWord c w = .shl (fieldX w) (fieldY w)))
    ∧ ∀ (x y : Reg) (s : State) (flag : Byte),
      (flag.toNat = (s.reg x).toNat % 2 →
        ∃ t, exec (.shr x y) s = .next t ∧ (x ≠ regF → t.reg regF = flag)
          ∧ (s.cfg.aluOrder = .snapshot ∨ x ≠ regF → (t.reg x).toNat = (s.reg x).toNat / 2)
          ∧ (s.cfg.aluOrder = .sequential → x = regF → t.reg x = 0)
          ∧ KeepsAllBut [] [regF, x] [] s t)
      ∧ (flag.toNat = (s.reg x).toNat / 128 →
        ∃ t, exec (.shl x y) s = .next t ∧ (x ≠ regF → t.reg regF = flag)
          ∧ (s.cfg.aluOrder = .snapshot ∨ x ≠ regF → (t.reg x).toNat = (s.reg x).toNat * 2 % 256)
          ∧ (s.cfg.aluOrder = .sequential → x = regF → (t.reg x).toNat = flag.toNat * 2)
          ∧ KeepsAllBut [] [regF, x] [] s t)

/-- R177: RND stores the draw of this cycle, masked. That the draw stands in the model's own field `draw` is the
model's choice (log 4). -/
def Obligations.RndStoresTheMaskedDraw : Prop :=
  (∀ c w, fieldOp w = 0xC → decodeWord c w = .rnd (fieldX w) (fieldKK w))
    ∧ ∀ (x : Reg) (kk : Byte) (s : State),
      ∃ t, exec (.rnd x kk) s = .next t ∧ t.reg x = s.draw &&& kk ∧ KeepsAllBut [] [x] [] s t

/-! ### Index register and memory -/

/-- R190, R192, R193: LD I, ADD I (modulo 2^16, no flag) and LD F (no reduction of V[x]). -/
def Obligations.IndexInstructionsWriteOnlyI : Prop :=
  (∀ c w, (fieldOp w = 0xA → decodeWord c w = .ldI (fieldNNN w))
      ∧ (fieldOp w = 0xF → fieldKK w = 0x1E → decodeWord c w = .addI (fieldX w))
      ∧ (fieldOp w = 0xF → fieldKK w = 0x29 → decodeWord c w = .ldF (fieldX w)))
    ∧ (∀ (nnn : Addr12) (s : State),
        ∃ t, exec (.ldI nnn) s = .next t ∧ t.i.toNat = nnn.toNat ∧ KeepsAllBut [.index] [] [] s t)
    ∧ ∀ (x : Reg) (s : State),
      (∃ t, exec (.addI x) s = .next t ∧ t.i.toNat = (s.i.toNat + (s.reg x).toNat) % 65536
        ∧ KeepsAllBut [.index] [] [] s t)
      ∧ ∃ t, exec (.ldF x) s = .next t ∧ t.i.toNat = 0x050 + 5 * (s.reg x).toNat
        ∧ KeepsAllBut [.index] [] [] s t

/-- R194: LD B stores the three decimal digits at `Addr(I)`, `Addr(I + 1)`, `Addr(I + 2)`, and no other byte;
where one of the addresses fails the bounds check it stores nothing and raises `DataOutOfBounds`. -/
def Obligations.BcdStoresThreeDigits : Prop :=
  (∀ c w, fieldOp w = 0xF → fieldKK w = 0x33 → decodeWord c w = .ldB (fieldX w))
    ∧ ∀ (x : Reg) (s : State),
      (s.DataInBounds 3 →
        ∃ t, exec (.ldB x) s = .next t
          ∧ (t.mem.read (s.dataIndex 0)).toNat = (s.reg x).toNat / 100
          ∧ (t.mem.read (s.dataIndex 1)).toNat = (s.reg x).toNat / 10 % 10
          ∧ (t.mem.read (s.dataIndex 2)).toNat = (s.reg x).toNat % 10
          ∧ KeepsAllBut [] [] (s.dataIndices 3) s t)
      ∧ (s.cfg.memOob = .fault → 0xFFF < s.i.toNat + 2 →
        exec (.ldB x) s = .next (s.latch
            ⟨.dataOutOfBounds, s.pc - 2, s.opcode, if s.i.toNat ≤ 0xFFF then 0x1000 else s.i⟩)
          ∧ s.CycleFaults (.ldB x) .dataOutOfBounds (if s.i.toNat ≤ 0xFFF then 0x1000 else s.i))

/-- R195: LD [I], Vx stores V[0] to V[x] at `Addr(I)` to `Addr(I + x)`, and no other byte. -/
def Obligations.StoreRegistersStoresV0ToVx : Prop :=
  (∀ c w, fieldOp w = 0xF → fieldKK w = 0x55 → decodeWord c w = .stRegs (fieldX w))
    ∧ ∀ (x : Reg) (s : State),
      (s.DataInBounds (x.val + 1) →
        ∃ t, exec (.stRegs x) s = .next t
          ∧ (∀ k : Reg, k ≤ x → t.mem.read (s.dataIndex k.val) = s.reg k)
          ∧ KeepsAllBut [] [] (s.dataIndices (x.val + 1)) s t)
      ∧ (s.cfg.memOob = .fault → 0xFFF < s.i.toNat + x.val →
        exec (.stRegs x) s = .next (s.latch
            ⟨.dataOutOfBounds, s.pc - 2, s.opcode, if s.i.toNat ≤ 0xFFF then 0x1000 else s.i⟩)
          ∧ s.CycleFaults (.stRegs x) .dataOutOfBounds (if s.i.toNat ≤ 0xFFF then 0x1000 else s.i))

/-- R196: LD Vx, [I] loads V[0] to V[x] from `Addr(I)` to `Addr(I + x)`, and changes no other register and no
memory. -/
def Obligations.LoadRegistersLoadsV0ToVx : Prop :=
  (∀ c w, fieldOp w = 0xF → fieldKK w = 0x65 → decodeWord c w = .ldRegs (fieldX w))
    ∧ ∀ (x : Reg) (s : State),
      (s.DataInBounds (x.val + 1) →
        ∃ t, exec (.ldRegs x) s = .next t
          ∧ (∀ k : Reg, k ≤ x → t.reg k = s.mem.read (s.dataIndex k.val))
          ∧ KeepsAllBut [] ((List.finRange 16).filter (· ≤ x)) [] s t)
      ∧ (s.cfg.memOob = .fault → 0xFFF < s.i.toNat + x.val →
        exec (.ldRegs x) s = .next (s.latch
            ⟨.dataOutOfBounds, s.pc - 2, s.opcode, if s.i.toNat ≤ 0xFFF then 0x1000 else s.i⟩)
          ∧ s.CycleFaults (.ldRegs x) .dataOutOfBounds (if s.i.toNat ≤ 0xFFF then 0x1000 else s.i))

/-! ### Display -/

/-- R210: CLS clears every pixel and nothing else. -/
def Obligations.ClearScreenClearsEveryPixel : Prop :=
  (∀ c, decodeWord c 0x00E0 = .cls)
    ∧ ∀ s : State, ∃ t, exec .cls s = .next t ∧ (∀ x y, t.video.at x y = 0) ∧ KeepsAllBut [.video] [] [] s t

/-- R212's draw, pixel by pixel, with R211's geometry: the pixels a set sprite pixel falls on are flipped and
no other; VF is 1 if one of them was 1, else 0; a failed bounds check draws nothing and raises. (R212's last
corner case, on drawing twice, is the statement `DrawingTwiceRestoresTheScreen`.) -/
def Obligations.DrawFlipsExactlyTheCoveredPixels : Prop :=
  (∀ c w, fieldOp w = 0xD → decodeWord c w = .drw (fieldX w) (fieldY w) (fieldN w))
    ∧ ∀ (x y : Reg) (n : Fin 16) (s : State),
      (s.DataInBounds n.val →
        ∃ t, exec (.drw x y n) s = .next t
          ∧ (∀ px py, (s.SpriteCovers x y n.val px py → t.video.at px py = s.video.at px py ^^^ 1)
              ∧ (¬ s.SpriteCovers x y n.val px py → t.video.at px py = s.video.at px py))
          ∧ ((∃ px py, s.SpriteCovers x y n.val px py ∧ s.video.at px py = 1) → t.reg regF = 1)
          ∧ ((¬ ∃ px py, s.SpriteCovers x y n.val px py ∧ s.video.at px py = 1) → t.reg regF = 0)
          ∧ KeepsAllBut [.video] [regF] [] s t)
      ∧ (s.cfg.memOob = .fault → 0 < n.val → 0xFFF < s.i.toNat + n.val - 1 →
        exec (.drw x y n) s = .next (s.latch
            ⟨.dataOutOfBounds, s.pc - 2, s.opcode, if s.i.toNat ≤ 0xFFF then 0x1000 else s.i⟩)
          ∧ s.CycleFaults (.drw x y n) .dataOutOfBounds (if s.i.toNat ≤ 0xFFF then 0x1000 else s.i))

/-- R212 and spec/95_test_vectors.md L1.7: drawing the same sprite twice at the same place restores the video
buffer, and the second draw's VF is 1 exactly when the first draw set a pixel. The two registers are not VF,
which the first draw changes. That the second VF is the pseudocode's, against R212's last corner case, is the
model's choice (log 16). -/
def Obligations.DrawingTwiceRestoresTheScreen : Prop :=
  ∀ (x y : Reg) (n : Fin 16) (s : State), x ≠ regF → y ≠ regF → s.DataInBounds n.val →
    ∃ t u, exec (.drw x y n) s = .next t ∧ exec (.drw x y n) t = .next u
      ∧ (∀ px py, u.video.at px py = s.video.at px py)
      ∧ (u.reg regF = 1 ↔ ∃ px py, s.video.at px py = 0 ∧ t.video.at px py = 1)

/-- The last corner case of R212 as its words have it: "the second draw sets VF = 1 exactly when the sprite
has at least one set pixel". R212's own pseudocode refutes it where the first draw only turned pixels off
(log 16): EXPECTED TO FAIL. -/
def Obligations.SecondDrawFlagsEveryNonemptySprite : Prop :=
  ∀ (x y : Reg) (n : Fin 16) (s t u : State), x ≠ regF → y ≠ regF → s.DataInBounds n.val →
    exec (.drw x y n) s = .next t → exec (.drw x y n) t = .next u →
    (u.reg regF = 1 ↔ ∃ px py, s.SpriteCovers x y n.val px py)

/-! ### Keypad and timers -/

/-- R230, R231, R232: SKP and SKNP, for a key number in range and, under each policy, out of range. -/
def Obligations.KeySkipsTestTheKeypad : Prop :=
  (∀ c w, fieldOp w = 0xE → (fieldKK w = 0x9E → decodeWord c w = .skp (fieldX w))
      ∧ (fieldKK w = 0xA1 → decodeWord c w = .sknp (fieldX w)))
    ∧ ∀ (x : Reg) (s : State),
      (∀ down : Bool,
        ((∃ k : Fin 16, (s.reg x).toNat = k.val ∧ down = s.pressed k)
          ∨ (0xF < (s.reg x).toNat ∧ s.cfg.keyOob = .notPressed ∧ down = false)
          ∨ (0xF < (s.reg x).toNat ∧ s.cfg.keyOob = .lowNibble
              ∧ ∃ k : Fin 16, (s.reg x).toNat % 16 = k.val ∧ down = s.pressed k)) →
        (∃ t, exec (.skp x) s = .next t ∧ KeepsAllBut [.pc] [] [] s t
          ∧ t.pc.toNat = if down = true then (s.pc.toNat + 2) % 65536 else s.pc.toNat)
        ∧ ∃ t, exec (.sknp x) s = .next t ∧ KeepsAllBut [.pc] [] [] s t
          ∧ t.pc.toNat = if down = false then (s.pc.toNat + 2) % 65536 else s.pc.toNat)
      ∧ (0xF < (s.reg x).toNat → s.cfg.keyOob = .fault → ∀ i ∈ [Instr.skp x, Instr.sknp x],
        exec i s = .next (s.latch
            ⟨.keyIndexOutOfRange, s.pc - 2, s.opcode, (s.reg x).setWidth 16⟩)
          ∧ s.CycleFaults i .keyIndexOutOfRange ((s.reg x).setWidth 16))

/-- R234, R235: LD Vx, K takes the lowest-numbered pressed key, or takes the pc back by 2. -/
def Obligations.KeyWaitTakesTheLowestKey : Prop :=
  (∀ c w, fieldOp w = 0xF → fieldKK w = 0x0A → decodeWord c w = .ldVxK (fieldX w))
    ∧ ∀ (x : Reg) (s : State),
      (∀ k, s.pressed k = true → (∀ j, j < k → s.pressed j = false) →
        ∃ t, exec (.ldVxK x) s = .next t ∧ (t.reg x).toNat = k.val ∧ KeepsAllBut [] [x] [] s t)
      ∧ ((∀ k, s.pressed k = false) →
        ∃ t, exec (.ldVxK x) s = .next t ∧ t.pc = s.pc - 2 ∧ KeepsAllBut [.pc] [] [] s t)

/-- R236: while no key is pressed, each cycle of an Fx0A leaves every piece of state unchanged except the
timers, decremented if above 0, and `opcode`, which holds the Fx0A word. -/
def Obligations.KeyWaitCycleStaysInPlace : Prop :=
  ∀ (r : Byte) (s : State) (x : Reg), s.fault = none → s.fetchFault = none →
    decodeWord s.cfg s.fetchWord = .ldVxK x → (∀ k, s.pressed k = false) →
    ∃ t, cycle r s = .next t ∧ KeepsAllBut [.delayTimer, .soundTimer, .opcode, .draws] [] [] s t
      ∧ t.opcode = s.fetchWord ∧ t.dt.toNat = s.dt.toNat - 1 ∧ t.st.toNat = s.st.toNat - 1

/-- R233, R237, R238: LD Vx, DT; LD DT, Vx; LD ST, Vx: the instruction, and its cycle, which decrements after
it. -/
def Obligations.TimerTransfers : Prop :=
  (∀ c w, fieldOp w = 0xF → (fieldKK w = 0x07 → decodeWord c w = .ldVxDt (fieldX w))
      ∧ (fieldKK w = 0x15 → decodeWord c w = .ldDtVx (fieldX w))
      ∧ (fieldKK w = 0x18 → decodeWord c w = .ldStVx (fieldX w)))
    ∧ ∀ (x : Reg) (s : State),
      (∃ t, exec (.ldVxDt x) s = .next t ∧ t.reg x = s.dt ∧ KeepsAllBut [] [x] [] s t)
      ∧ (∃ t, exec (.ldDtVx x) s = .next t ∧ t.dt = s.reg x ∧ KeepsAllBut [.delayTimer] [] [] s t)
      ∧ (∃ t, exec (.ldStVx x) s = .next t ∧ t.st = s.reg x ∧ KeepsAllBut [.soundTimer] [] [] s t)
      ∧ ∀ r : Byte, s.fault = none → s.fetchFault = none →
        (decodeWord s.cfg s.fetchWord = .ldVxDt x →
          ∃ t, cycle r s = .next t ∧ t.reg x = s.dt ∧ t.dt.toNat = s.dt.toNat - 1)
        ∧ (decodeWord s.cfg s.fetchWord = .ldDtVx x →
          ∃ t, cycle r s = .next t ∧ t.dt.toNat = (s.reg x).toNat - 1)
        ∧ (decodeWord s.cfg s.fetchWord = .ldStVx x →
          ∃ t, cycle r s = .next t ∧ t.st.toNat = (s.reg x).toNat - 1)

/-! ### Whole-machine rules -/

/-- R22's table, all of it: an instruction changes no general register but those of its "Writes" column, and
a register outside its "Reads" column has no influence: changing it before the instruction changes nothing
after it but, where the instruction does not write it, that register itself. -/
def Obligations.RegisterAccessIsThatOfTheTable : Prop :=
  ∀ (i : Instr) (s t : State), exec i s = .next t →
    (∀ r, r ∉ writesOf i → t.reg r = s.reg r)
    ∧ ∀ q b, q ∉ readsOf i →
      ∃ t', exec i (s.setReg q b) = .next t' ∧ (∀ p : Part, p.same t t')
        ∧ (∀ a, t'.mem.read a = t.mem.read a) ∧ (∀ r, r ≠ q → t'.reg r = t.reg r)
        ∧ (t'.reg q = t.reg q ∨ (t.reg q = s.reg q ∧ t'.reg q = b))

/-- R23, R24, R25, R28, R29, R30, R31, R32 with R251, R60: which instructions write each part of the state. That
none writes `cfg`, `draw` or `drawIndex`, the model's own fields, is the model's choice (log 1, log 4). -/
def Obligations.EachPartIsWrittenOnlyByItsInstructions : Prop :=
  ∀ (i : Instr) (s t : State), exec i s = .next t →
    (t.i ≠ s.i → i.rowNumber ∈ [21, 31, 32])
    ∧ (t.sp ≠ s.sp ∨ t.stack ≠ s.stack → i.rowNumber ∈ [3, 5])
    ∧ (t.dt ≠ s.dt → i.rowNumber = 29) ∧ (t.st ≠ s.st → i.rowNumber = 30)
    ∧ (t.video ≠ s.video → i.rowNumber ∈ [2, 24]) ∧ t.key = s.key ∧ t.opcode = s.opcode
    ∧ (t.mem ≠ s.mem → i.rowNumber ∈ [33, 34])
    ∧ (t.pc ≠ s.pc → i.rowNumber ∈ [3, 4, 5, 6, 7, 8, 20, 22, 25, 26, 28])
    ∧ (t.fault ≠ s.fault → i.rowNumber ∈ [3, 5, 24, 25, 26, 33, 34, 35])
    ∧ t.cfg = s.cfg ∧ t.draw = s.draw ∧ t.drawIndex = s.drawIndex

/-- R122, R250, log 5: a step always answers a next state: no word traps, raises an error or stops the core on
decode, and every failure is latched. -/
def Obligations.EveryStepAnswersANextState : Prop :=
  ∀ s : State, ∃ t, step s = .next t

/-- R65 with the model's form of memory (log 13): two memories in canonical form that read alike are equal. -/
def Obligations.CanonicalMemoriesThatReadAlikeAreEqual : Prop :=
  ∀ m m' : Memory, m.wf = true → m'.wf = true → (∀ a, m.read a = m'.read a) → m = m'

/-! ### Invariants -/

/-- The invariant holds after reset (R37, R251). The canonical form of memory in it is the model's choice
(log 13), and the state is the one under the spec's default parameters (log 2). -/
def Obligations.ResetStateHasTheInvariant : Prop :=
  State.reset.Inv

/-- R251, R253 and the form of memory: every step from a state with the invariant, reached or not, leads to
one with it: memory stays in canonical form, which is the model's choice (log 13), and a latched record is one
that R251 lists for the very state it stands in. -/
def Obligations.StepKeepsTheInvariant : Prop :=
  ∀ s t : State, s.Inv → step s = .next t → t.Inv

/-- A sequence of host operations (R50, R51), whatever they are, always completes, and keeps the invariant (R251,
R253, R254). The canonical form of memory in it is the model's choice (log 13), and that a failed operation is
a next state is its form of the latch (log 5). -/
def Obligations.HostRunsCompleteAndKeepTheInvariant : Prop :=
  ∀ (ops : List HostOp) (s : State), s.Inv → ∃ t, hostRun ops s = .next t ∧ t.Inv

/-! ### Ports -/

/-- R280, R37: `reset()` puts every piece of state into the reset state, whatever the state before it, and is
idempotent. -/
def Obligations.ResetPutsEveryPieceInItsResetState : Prop :=
  ∀ s : State, ∃ t, HostOp.reset.run s = .next (t, .none)
    ∧ (∀ a (h : a < 80), t.mem.read (0x050 + a) = s.cfg.fontset[a])
    ∧ (∀ a, a < 0x1000 → ¬ (0x050 ≤ a ∧ a ≤ 0x09F) → t.mem.read a = 0)
    ∧ (∀ r, t.reg r = 0) ∧ t.i = 0 ∧ t.pc = 0x200 ∧ t.sp = 0 ∧ (∀ j, t.entry j = 0) ∧ t.dt = 0 ∧ t.st = 0
    ∧ (∀ x y, t.video.at x y = 0) ∧ (∀ k, t.pressed k = false) ∧ t.opcode = 0 ∧ t.fault = none
    ∧ HostOp.reset.run t = .next (t, .none)

/-- R281 with the default parameters (log 2, log 3): the state after construction is what `reset()` leaves. That
`reset()` keeps the model's own fields, the configuration and the free value's, is the model's choice
(log 15). -/
def Obligations.ConstructionIsReset : Prop :=
  (∀ s : State, s.cfg = Config.default →
    s.resetPort = { State.reset with draw := s.draw, drawIndex := s.drawIndex })
    ∧ ∀ s : State, s.resetPort.cfg = s.cfg ∧ s.resetPort.draw = s.draw ∧ s.resetPort.drawIndex = s.drawIndex

/-- R283, R284: `loadProgram` copies at most 3584 bytes to 0x200 on, and changes nothing else; a longer
program is rejected whole. -/
def Obligations.LoadProgramCopiesOrRejects : Prop :=
  ∀ (bytes : List Byte) (s : State),
    (bytes.length ≤ 4096 - 0x200 →
      ∃ t, (HostOp.loadProgram bytes).run s = .next (t, .ok)
        ∧ (∀ k (h : k < bytes.length), t.mem.read (0x200 + k) = bytes[k])
        ∧ KeepsAllBut [] [] ((List.range bytes.length).map (0x200 + ·)) s t)
    ∧ (4096 - 0x200 < bytes.length → (HostOp.loadProgram bytes).run s = .next (s, .loadTooLarge))

/-- R50, R52: `setKey` writes one keypad slot and nothing else. -/
def Obligations.SetKeyWritesOneSlot : Prop :=
  ∀ (k : Fin 16) (b : Bool) (s : State), ∃ t, (HostOp.setKey k b).run s = .next (t, .none)
    ∧ t.pressed k = b ∧ (∀ q, q ≠ k → t.pressed q = s.pressed q) ∧ KeepsAllBut [.keypad] [] [] s t

/-- R29, R53: the host's video view holds 2048 bytes, each 0 or 1, pixel (x, y) at the flat index y*64 + x. -/
def Obligations.VideoViewIsRowMajor : Prop :=
  ∀ s : State, s.videoView.length = 2048 ∧ (∀ b ∈ s.videoView, b = 0 ∨ b = 1)
    ∧ ∀ (x : Fin 64) (y : Fin 32),
      (s.videoView[y.val * 64 + x.val]?).map BitVec.toNat = some (s.video.at x y).toNat

/-- R292: each cycle at a halt loop leaves all state unchanged except the timers, and `opcode`, which then
holds the loop's word; the core is still at the loop. That no halt loop stands at 0xFFF is the model's choice
(log 17). -/
def Obligations.HaltLoopStays : Prop :=
  ∀ (r : Byte) (s : State) (h : Addr12), s.running = true → h.toNat < 0xFFF → s.atHaltLoop h →
    ∃ t, cycle r s = .next t ∧ KeepsAllBut [.delayTimer, .soundTimer, .opcode, .draws] [] [] s t
      ∧ t.opcode.toNat = 0x1000 + h.toNat ∧ t.dt.toNat = s.dt.toNat - 1 ∧ t.st.toNat = s.st.toNat - 1
      ∧ t.running = true ∧ t.atHaltLoop h
end

