-- ==== Sys2Proof/Laws/Decode.lean ====
section
/-! SUPPORT. Words, fields and masks as numbers (spec/30_encoding.md R91): what a format's word is, what a
field of a word is, and what a mask of R120 keeps. -/

namespace Sys2Proof

/-! ### Formats -/

theorem append_toNat {m n : Nat} (a : BitVec m) (b : BitVec n) :
    (a ++ b).toNat = a.toNat * 2 ^ n + b.toNat := by
  rw [BitVec.toNat_append, ← Nat.shiftLeft_add_eq_or_of_lt b.isLt, Nat.shiftLeft_eq]

@[simp] theorem nibble_toNat (x : Fin 16) : (nibble x).toNat = x.val := by
  simp [nibble]

theorem wordOfBytes_toNat (hi lo : Byte) : (wordOfBytes hi lo).toNat = hi.toNat * 0x100 + lo.toNat :=
  append_toNat hi lo

theorem formatFA_toNat (op : BitVec 4) (nnn : Addr12) :
    (formatFA op nnn).toNat = op.toNat * 0x1000 + nnn.toNat :=
  append_toNat op nnn

theorem formatFXK_toNat (op : BitVec 4) (x : Reg) (kk : Byte) :
    (formatFXK op x kk).toNat = (op.toNat * 0x10 + x.val) * 0x100 + kk.toNat :=
  (append_toNat (op ++ nibble x) kk).trans (by rw [append_toNat, nibble_toNat]; rfl)

theorem formatFXYN_toNat (op : BitVec 4) (x y : Reg) (n : BitVec 4) :
    (formatFXYN op x y n).toNat = ((op.toNat * 0x10 + x.val) * 0x10 + y.val) * 0x10 + n.toNat :=
  (append_toNat (op ++ nibble x ++ nibble y) n).trans
    (by rw [append_toNat, append_toNat, nibble_toNat, nibble_toNat]; rfl)

/-! ### Fields -/

theorem fieldOp_val (w : Word) : (fieldOp w).val = w.toNat / 0x1000 := by
  simp [fieldOp, BitVec.extractLsb'_toNat, Nat.shiftRight_eq_div_pow]
  omega

theorem fieldX_val (w : Word) : (fieldX w).val = w.toNat / 0x100 % 0x10 := by
  simp [fieldX, BitVec.extractLsb'_toNat, Nat.shiftRight_eq_div_pow]

theorem fieldY_val (w : Word) : (fieldY w).val = w.toNat / 0x10 % 0x10 := by
  simp [fieldY, BitVec.extractLsb'_toNat, Nat.shiftRight_eq_div_pow]

theorem fieldN_val (w : Word) : (fieldN w).val = w.toNat % 0x10 := by
  simp [fieldN, BitVec.extractLsb'_toNat]

theorem fieldKK_toNat (w : Word) : (fieldKK w).toNat = w.toNat % 0x100 := by
  simp [fieldKK, BitVec.extractLsb'_toNat]

theorem fieldNNN_toNat (w : Word) : (fieldNNN w).toNat = w.toNat % 0x1000 := by
  simp [fieldNNN, BitVec.extractLsb'_toNat]

/-- A word is its four nibbles. -/
theorem word_eq_fields (w : Word) :
    w.toNat = (((fieldOp w).val * 0x10 + (fieldX w).val) * 0x10 + (fieldY w).val) * 0x10 + (fieldN w).val := by
  rw [fieldOp_val, fieldX_val, fieldY_val, fieldN_val]
  omega

/-! ### Masks -/

theorem and_toNat_split (w m : Word) :
    (w &&& m).toNat =
      (w.toNat / 0x1000 &&& m.toNat / 0x1000) * 0x1000 + (w.toNat % 0x1000 &&& m.toNat % 0x1000) := by
  have h1 := Nat.and_div_two_pow (a := w.toNat) (b := m.toNat) (n := 12)
  have h2 := Nat.and_mod_two_pow (a := w.toNat) (b := m.toNat) (n := 12)
  rw [BitVec.toNat_and]
  simp only [show (2 : Nat) ^ 12 = 0x1000 from rfl] at h1 h2
  omega

theorem and_all_ones (n k : Nat) (h : n < 2 ^ k) : n &&& (2 ^ k - 1) = n := by
  rw [Nat.and_two_pow_sub_one_eq_mod, Nat.mod_eq_of_lt h]

/-- Mask F000. -/
theorem maskF000_toNat (w : Word) : (w &&& 0xF000).toNat = (fieldOp w).val * 0x1000 := by
  rw [and_toNat_split, fieldOp_val, show (0xF000 : Word).toNat / 0x1000 = 2 ^ 4 - 1 from rfl,
    show (0xF000 : Word).toNat % 0x1000 = 0 from rfl, and_all_ones _ 4 (by omega), Nat.and_zero,
    Nat.add_zero]

/-- Mask F00F. -/
theorem maskF00F_toNat (w : Word) : (w &&& 0xF00F).toNat = (fieldOp w).val * 0x1000 + (fieldN w).val := by
  rw [and_toNat_split, fieldOp_val, fieldN_val, show (0xF00F : Word).toNat / 0x1000 = 2 ^ 4 - 1 from rfl,
    show (0xF00F : Word).toNat % 0x1000 = 2 ^ 4 - 1 from rfl, and_all_ones _ 4 (by omega),
    Nat.and_two_pow_sub_one_eq_mod]
  omega

/-- Mask F0FF. -/
theorem maskF0FF_toNat (w : Word) : (w &&& 0xF0FF).toNat = (fieldOp w).val * 0x1000 + (fieldKK w).toNat := by
  rw [and_toNat_split, fieldOp_val, fieldKK_toNat, show (0xF0FF : Word).toNat / 0x1000 = 2 ^ 4 - 1 from rfl,
    show (0xF0FF : Word).toNat % 0x1000 = 2 ^ 8 - 1 from rfl, and_all_ones _ 4 (by omega),
    Nat.and_two_pow_sub_one_eq_mod]
  omega

end Sys2Proof
end

