-- ==== Sys2Proof/Laws/Memory.lean ====
section
/-! SUPPORT. The laws of memory: read after write, the canonical form, and that equal memories are equal
lists (spec/20_memory.md R65, R72). -/

namespace Sys2Proof.Machine

/-! ### Reads -/

theorem Memory.read_cons (c : Host.Cell) (m : Memory) (a : Nat) :
    Memory.read (c :: m) a = if c.1 = a then c.2 else Memory.read m a := rfl

theorem Memory.read_erase (m : Memory) (a b : Nat) :
    (m.erase a).read b = if b = a then Memory.background a else m.read b := by
  induction m with
  | nil => by_cases h : b = a <;> simp [Memory.erase, Memory.read, h]
  | cons c rest ih =>
    by_cases hc : c.1 = a
    · have : Memory.erase (c :: rest) a = Memory.erase rest a := by simp [Memory.erase, hc]
      rw [this, ih, Memory.read_cons]
      by_cases h : b = a
      · simp [h]
      · have : ¬ c.1 = b := fun e => h (e.symm.trans hc)
        simp [h, this]
    · have : Memory.erase (c :: rest) a = c :: Memory.erase rest a := by simp [Memory.erase, hc]
      rw [this, Memory.read_cons, ih, Memory.read_cons]
      by_cases h : b = a
      · subst h; simp [hc]
      · simp [h]

theorem Memory.read_insert (m : Memory) (a b : Nat) (v : Byte) (ha : ∀ c ∈ m, c.1 ≠ a) :
    (Memory.insert a v m).read b = if b = a then v else m.read b := by
  induction m with
  | nil => simp [Memory.insert, Memory.read, eq_comm]
  | cons c rest ih =>
    have hc : c.1 ≠ a := ha c (by simp)
    have ih := ih fun d hd => ha d (by simp [hd])
    by_cases hlt : a < c.1
    · simp [Memory.insert, hlt, Memory.read_cons, eq_comm]
    · simp only [Memory.insert, hlt, if_false, Memory.read_cons, ih]
      by_cases h : c.1 = b
      · have : ¬ b = a := fun e => hc (h.trans e)
        simp [h, this]
      · simp [h]

theorem Memory.not_mem_erase (m : Memory) (a : Nat) : ∀ c ∈ m.erase a, c.1 ≠ a := by
  intro c hc
  simp [Memory.erase] at hc
  exact hc.2

/-- Read after write, of any list. -/
theorem Memory.read_write (m : Memory) (a b : Nat) (v : Byte) :
    (m.write a v).read b = if b = a then v else m.read b := by
  unfold Memory.write
  split
  · next h => rw [Memory.read_erase]; simp [h]
  · rw [Memory.read_insert _ _ _ _ (m.not_mem_erase a), Memory.read_erase]
    by_cases h : b = a <;> simp [h]

/-! ### The canonical form -/

theorem Memory.wfFrom_cons (low : Nat) (c : Host.Cell) (m : Memory) :
    Memory.wfFrom low (c :: m) = true ↔
      low ≤ c.1 ∧ c.1 < memorySize ∧ c.2 ≠ Memory.background c.1 ∧ Memory.wfFrom (c.1 + 1) m = true := by
  simp [Memory.wfFrom, and_assoc]

theorem Memory.wfFrom_mono (m : Memory) (low low' : Nat) (h : low' ≤ low) (hm : Memory.wfFrom low m = true) :
    Memory.wfFrom low' m = true := by
  cases m with
  | nil => rfl
  | cons c rest =>
    rw [Memory.wfFrom_cons] at hm ⊢
    exact ⟨by omega, hm.2⟩

theorem Memory.wfFrom_erase (m : Memory) (a low : Nat) (hm : Memory.wfFrom low m = true) :
    Memory.wfFrom low (m.erase a) = true := by
  induction m generalizing low with
  | nil => rfl
  | cons c rest ih =>
    rw [Memory.wfFrom_cons] at hm
    obtain ⟨h1, h2, h3, h4⟩ := hm
    by_cases hc : c.1 = a
    · have : Memory.erase (c :: rest) a = Memory.erase rest a := by simp [Memory.erase, hc]
      rw [this]
      exact Memory.wfFrom_mono _ _ _ (by omega) (ih _ h4)
    · have : Memory.erase (c :: rest) a = c :: Memory.erase rest a := by simp [Memory.erase, hc]
      rw [this, Memory.wfFrom_cons]
      exact ⟨h1, h2, h3, ih _ h4⟩

theorem Memory.wfFrom_insert (m : Memory) (a low : Nat) (v : Byte) (hl : low ≤ a) (ha : a < memorySize)
    (hv : v ≠ Memory.background a) (hn : ∀ c ∈ m, c.1 ≠ a) (hm : Memory.wfFrom low m = true) :
    Memory.wfFrom low (Memory.insert a v m) = true := by
  induction m generalizing low with
  | nil => simp [Memory.insert, Memory.wfFrom, hl, ha, hv]
  | cons c rest ih =>
    rw [Memory.wfFrom_cons] at hm
    obtain ⟨h1, h2, h3, h4⟩ := hm
    have hc : c.1 ≠ a := hn c (by simp)
    by_cases hlt : a < c.1
    · simp only [Memory.insert, hlt, if_true]
      rw [Memory.wfFrom_cons, Memory.wfFrom_cons]
      exact ⟨hl, ha, hv, hlt, h2, h3, h4⟩
    · simp only [Memory.insert, hlt, if_false]
      rw [Memory.wfFrom_cons]
      exact ⟨h1, h2, h3, ih _ (by omega) (fun d hd => hn d (by simp [hd])) h4⟩

/-- A write inside the address space keeps the canonical form. -/
theorem Memory.wf_write (m : Memory) (a : Nat) (v : Byte) (ha : a < memorySize) (hm : m.wf = true) :
    (m.write a v).wf = true := by
  unfold Memory.write Memory.wf at *
  split
  · exact Memory.wfFrom_erase _ _ _ hm
  · next h =>
    exact Memory.wfFrom_insert _ _ _ _ (by omega) ha h (m.not_mem_erase a) (Memory.wfFrom_erase _ _ _ hm)

/-- Below its first address, a memory in canonical form reads as the background. -/
theorem Memory.read_of_wfFrom (m : Memory) (low a : Nat) (hm : Memory.wfFrom low m = true) (h : a < low) :
    m.read a = Memory.background a := by
  induction m generalizing low with
  | nil => rfl
  | cons c rest ih =>
    rw [Memory.wfFrom_cons] at hm
    have : ¬ c.1 = a := by omega
    rw [Memory.read_cons, if_neg this]
    exact ih (c.1 + 1) hm.2.2.2 (by omega)

/-! ### Bounds -/

theorem memIndex_lt (p : MemOobPolicy) (a : Nat) (h : inBounds p a = true) : memIndex p a < memorySize := by
  cases p with
  | fault => simpa [inBounds, memIndex] using h
  | wrap12 => exact Nat.mod_lt _ (by decide)

@[simp] theorem memIndex_fault (a : Nat) : memIndex .fault a = a := rfl

@[simp] theorem memIndex_wrap12 (a : Nat) : memIndex .wrap12 a = a % memorySize := rfl

theorem memIndex_inj (p : MemOobPolicy) (a j k : Nat) (hj : j < memorySize) (hk : k < memorySize)
    (h : memIndex p (a + j) = memIndex p (a + k)) : j = k := by
  cases p with
  | fault => simp only [memIndex] at h; omega
  | wrap12 => simp only [memIndex, memorySize] at *; omega

/-- The bounds check passes exactly where the policy wraps or the whole block is in memory. -/
theorem firstOutOfBounds_eq_none (p : MemOobPolicy) (base count : Nat) :
    firstOutOfBounds p base count = none ↔ p = .wrap12 ∨ base + count ≤ memorySize ∨ count = 0 := by
  induction count generalizing base with
  | zero => simp [firstOutOfBounds]
  | succ n ih =>
    cases p with
    | wrap12 => simp [firstOutOfBounds, inBounds, ih]
    | fault =>
      simp only [firstOutOfBounds, inBounds, decide_eq_true_eq]
      split
      · rw [ih]; simp; omega
      · simp; omega

/-- The address it answers is the lowest of the block that is above 0xFFF. -/
theorem firstOutOfBounds_eq_some (p : MemOobPolicy) (base count a : Nat) :
    firstOutOfBounds p base count = some a ↔
      p = .fault ∧ 0 < count ∧ memorySize < base + count ∧ a = max base memorySize := by
  induction count generalizing base with
  | zero => simp [firstOutOfBounds]
  | succ n ih =>
    cases p with
    | wrap12 => simp [firstOutOfBounds, inBounds, ih]
    | fault =>
      simp only [firstOutOfBounds, inBounds, decide_eq_true_eq]
      split
      · rw [ih]; simp; omega
      · simp; omega

/-! ### Blocks -/

/-- A block write changes no byte outside the computed addresses. -/
theorem Memory.read_writeBlock_of_ne (p : MemOobPolicy) (m : Memory) (a : Nat) (bytes : List Byte) (b : Nat)
    (hb : ∀ k < bytes.length, b ≠ memIndex p (a + k)) :
    (Memory.writeBlock p m a bytes).read b = m.read b := by
  induction bytes generalizing m a with
  | nil => rfl
  | cons c rest ih =>
    have h0 : b ≠ memIndex p a := by simpa using hb 0 (by simp)
    have hr : ∀ k < rest.length, b ≠ memIndex p (a + 1 + k) := fun k hk => by
      have := hb (k + 1) (by simpa using hk)
      rwa [show a + (k + 1) = a + 1 + k by omega] at this
    rw [Memory.writeBlock, ih _ _ hr, Memory.read_write, if_neg h0]

/-- A block write puts the k-th byte at the k-th computed address. -/
theorem Memory.read_writeBlock (p : MemOobPolicy) (m : Memory) (a : Nat) (bytes : List Byte)
    (hlen : bytes.length ≤ memorySize) (k : Nat) (hk : k < bytes.length) :
    (Memory.writeBlock p m a bytes).read (memIndex p (a + k)) = bytes[k] := by
  induction bytes generalizing m a k with
  | nil => simp at hk
  | cons c rest ih =>
    have hlen' : rest.length + 1 ≤ memorySize := by simpa using hlen
    cases k with
    | zero =>
      rw [Memory.writeBlock, Memory.read_writeBlock_of_ne]
      · simp [Memory.read_write]
      · intro j hj e
        have := memIndex_inj p a 0 (j + 1) (by simp) (by omega)
          (by rwa [show a + (j + 1) = a + 1 + j by omega])
        omega
    | succ k =>
      have := ih (m.write (memIndex p a) c) (a + 1) (by omega) k (by simpa using hk)
      rw [Memory.writeBlock, show a + (k + 1) = a + 1 + k by omega, this]
      rfl

/-- A block write whose addresses pass the bounds check keeps the canonical form. -/
theorem Memory.wf_writeBlock (p : MemOobPolicy) (m : Memory) (a : Nat) (bytes : List Byte)
    (hb : p = .wrap12 ∨ a + bytes.length ≤ memorySize) (hm : m.wf = true) :
    (Memory.writeBlock p m a bytes).wf = true := by
  induction bytes generalizing m a with
  | nil => exact hm
  | cons c rest ih =>
    have hi : inBounds p a = true := by
      rcases hb with rfl | h
      · rfl
      · cases p <;> simp [inBounds] at h ⊢
        omega
    refine ih _ _ ?_ (Memory.wf_write _ _ _ (memIndex_lt p a hi) hm)
    rcases hb with h | h
    · exact .inl h
    · exact .inr (by simp at h; omega)

end Sys2Proof.Machine
end

