-- ==== Sys2Proof/Laws/State.lean ====
section
/-! SUPPORT. What each update of the state does to each field: one lemma per field per update, so that no
later proof unfolds a record update. -/

namespace Sys2Proof.Machine

variable (s : State)

/-! ### setReg -/

@[simp] theorem State.setReg_mem (r : Reg) (b : Byte) : (s.setReg r b).mem = s.mem := rfl
@[simp] theorem State.setReg_v (r : Reg) (b : Byte) : (s.setReg r b).v = s.v.set r.val b := rfl
@[simp] theorem State.setReg_i (r : Reg) (b : Byte) : (s.setReg r b).i = s.i := rfl
@[simp] theorem State.setReg_pc (r : Reg) (b : Byte) : (s.setReg r b).pc = s.pc := rfl
@[simp] theorem State.setReg_sp (r : Reg) (b : Byte) : (s.setReg r b).sp = s.sp := rfl
@[simp] theorem State.setReg_stack (r : Reg) (b : Byte) : (s.setReg r b).stack = s.stack := rfl
@[simp] theorem State.setReg_dt (r : Reg) (b : Byte) : (s.setReg r b).dt = s.dt := rfl
@[simp] theorem State.setReg_st (r : Reg) (b : Byte) : (s.setReg r b).st = s.st := rfl
@[simp] theorem State.setReg_video (r : Reg) (b : Byte) : (s.setReg r b).video = s.video := rfl
@[simp] theorem State.setReg_key (r : Reg) (b : Byte) : (s.setReg r b).key = s.key := rfl
@[simp] theorem State.setReg_opcode (r : Reg) (b : Byte) : (s.setReg r b).opcode = s.opcode := rfl
@[simp] theorem State.setReg_fault (r : Reg) (b : Byte) : (s.setReg r b).fault = s.fault := rfl
@[simp] theorem State.setReg_cfg (r : Reg) (b : Byte) : (s.setReg r b).cfg = s.cfg := rfl
@[simp] theorem State.setReg_draw (r : Reg) (b : Byte) : (s.setReg r b).draw = s.draw := rfl
@[simp] theorem State.setReg_drawIndex (r : Reg) (b : Byte) : (s.setReg r b).drawIndex = s.drawIndex := rfl

/-! ### latch -/

@[simp] theorem State.latch_mem (r : FaultRecord) : (s.latch r).mem = s.mem := rfl
@[simp] theorem State.latch_v (r : FaultRecord) : (s.latch r).v = s.v := rfl
@[simp] theorem State.latch_i (r : FaultRecord) : (s.latch r).i = s.i := rfl
@[simp] theorem State.latch_pc (r : FaultRecord) : (s.latch r).pc = s.pc := rfl
@[simp] theorem State.latch_sp (r : FaultRecord) : (s.latch r).sp = s.sp := rfl
@[simp] theorem State.latch_stack (r : FaultRecord) : (s.latch r).stack = s.stack := rfl
@[simp] theorem State.latch_dt (r : FaultRecord) : (s.latch r).dt = s.dt := rfl
@[simp] theorem State.latch_st (r : FaultRecord) : (s.latch r).st = s.st := rfl
@[simp] theorem State.latch_video (r : FaultRecord) : (s.latch r).video = s.video := rfl
@[simp] theorem State.latch_key (r : FaultRecord) : (s.latch r).key = s.key := rfl
@[simp] theorem State.latch_opcode (r : FaultRecord) : (s.latch r).opcode = s.opcode := rfl
@[simp] theorem State.latch_fault (r : FaultRecord) : (s.latch r).fault = some r := rfl
@[simp] theorem State.latch_cfg (r : FaultRecord) : (s.latch r).cfg = s.cfg := rfl
@[simp] theorem State.latch_draw (r : FaultRecord) : (s.latch r).draw = s.draw := rfl
@[simp] theorem State.latch_drawIndex (r : FaultRecord) : (s.latch r).drawIndex = s.drawIndex := rfl

/-! ### tick -/

@[simp] theorem State.tick_mem : (s.tick).mem = s.mem := rfl
@[simp] theorem State.tick_v : (s.tick).v = s.v := rfl
@[simp] theorem State.tick_i : (s.tick).i = s.i := rfl
@[simp] theorem State.tick_pc : (s.tick).pc = s.pc := rfl
@[simp] theorem State.tick_sp : (s.tick).sp = s.sp := rfl
@[simp] theorem State.tick_stack : (s.tick).stack = s.stack := rfl
@[simp] theorem State.tick_dt : (s.tick).dt = timerTick s.dt := rfl
@[simp] theorem State.tick_st : (s.tick).st = timerTick s.st := rfl
@[simp] theorem State.tick_video : (s.tick).video = s.video := rfl
@[simp] theorem State.tick_key : (s.tick).key = s.key := rfl
@[simp] theorem State.tick_opcode : (s.tick).opcode = s.opcode := rfl
@[simp] theorem State.tick_fault : (s.tick).fault = s.fault := rfl
@[simp] theorem State.tick_cfg : (s.tick).cfg = s.cfg := rfl
@[simp] theorem State.tick_draw : (s.tick).draw = s.draw := rfl
@[simp] theorem State.tick_drawIndex : (s.tick).drawIndex = s.drawIndex := rfl

/-! ### skip -/

@[simp] theorem State.skip_mem : (s.skip).mem = s.mem := rfl
@[simp] theorem State.skip_v : (s.skip).v = s.v := rfl
@[simp] theorem State.skip_i : (s.skip).i = s.i := rfl
@[simp] theorem State.skip_pc : (s.skip).pc = s.pc + 2 := rfl
@[simp] theorem State.skip_sp : (s.skip).sp = s.sp := rfl
@[simp] theorem State.skip_stack : (s.skip).stack = s.stack := rfl
@[simp] theorem State.skip_dt : (s.skip).dt = s.dt := rfl
@[simp] theorem State.skip_st : (s.skip).st = s.st := rfl
@[simp] theorem State.skip_video : (s.skip).video = s.video := rfl
@[simp] theorem State.skip_key : (s.skip).key = s.key := rfl
@[simp] theorem State.skip_opcode : (s.skip).opcode = s.opcode := rfl
@[simp] theorem State.skip_fault : (s.skip).fault = s.fault := rfl
@[simp] theorem State.skip_cfg : (s.skip).cfg = s.cfg := rfl
@[simp] theorem State.skip_draw : (s.skip).draw = s.draw := rfl
@[simp] theorem State.skip_drawIndex : (s.skip).drawIndex = s.drawIndex := rfl

/-! ### jumpTo -/

@[simp] theorem State.jumpTo_mem (t : Word) : (s.jumpTo t).mem = s.mem := rfl
@[simp] theorem State.jumpTo_v (t : Word) : (s.jumpTo t).v = s.v := rfl
@[simp] theorem State.jumpTo_i (t : Word) : (s.jumpTo t).i = s.i := rfl
@[simp] theorem State.jumpTo_pc (t : Word) : (s.jumpTo t).pc = target t := rfl
@[simp] theorem State.jumpTo_sp (t : Word) : (s.jumpTo t).sp = s.sp := rfl
@[simp] theorem State.jumpTo_stack (t : Word) : (s.jumpTo t).stack = s.stack := rfl
@[simp] theorem State.jumpTo_dt (t : Word) : (s.jumpTo t).dt = s.dt := rfl
@[simp] theorem State.jumpTo_st (t : Word) : (s.jumpTo t).st = s.st := rfl
@[simp] theorem State.jumpTo_video (t : Word) : (s.jumpTo t).video = s.video := rfl
@[simp] theorem State.jumpTo_key (t : Word) : (s.jumpTo t).key = s.key := rfl
@[simp] theorem State.jumpTo_opcode (t : Word) : (s.jumpTo t).opcode = s.opcode := rfl
@[simp] theorem State.jumpTo_fault (t : Word) : (s.jumpTo t).fault = s.fault := rfl
@[simp] theorem State.jumpTo_cfg (t : Word) : (s.jumpTo t).cfg = s.cfg := rfl
@[simp] theorem State.jumpTo_draw (t : Word) : (s.jumpTo t).draw = s.draw := rfl
@[simp] theorem State.jumpTo_drawIndex (t : Word) : (s.jumpTo t).drawIndex = s.drawIndex := rfl

/-! ### fetched -/

@[simp] theorem State.fetched_mem (r : Byte) (w : Word) : (s.fetched r w).mem = s.mem := rfl
@[simp] theorem State.fetched_v (r : Byte) (w : Word) : (s.fetched r w).v = s.v := rfl
@[simp] theorem State.fetched_i (r : Byte) (w : Word) : (s.fetched r w).i = s.i := rfl
@[simp] theorem State.fetched_pc (r : Byte) (w : Word) : (s.fetched r w).pc = s.pc + 2 := rfl
@[simp] theorem State.fetched_sp (r : Byte) (w : Word) : (s.fetched r w).sp = s.sp := rfl
@[simp] theorem State.fetched_stack (r : Byte) (w : Word) : (s.fetched r w).stack = s.stack := rfl
@[simp] theorem State.fetched_dt (r : Byte) (w : Word) : (s.fetched r w).dt = s.dt := rfl
@[simp] theorem State.fetched_st (r : Byte) (w : Word) : (s.fetched r w).st = s.st := rfl
@[simp] theorem State.fetched_video (r : Byte) (w : Word) : (s.fetched r w).video = s.video := rfl
@[simp] theorem State.fetched_key (r : Byte) (w : Word) : (s.fetched r w).key = s.key := rfl
@[simp] theorem State.fetched_opcode (r : Byte) (w : Word) : (s.fetched r w).opcode = w := rfl
@[simp] theorem State.fetched_fault (r : Byte) (w : Word) : (s.fetched r w).fault = s.fault := rfl
@[simp] theorem State.fetched_cfg (r : Byte) (w : Word) : (s.fetched r w).cfg = s.cfg := rfl
@[simp] theorem State.fetched_draw (r : Byte) (w : Word) : (s.fetched r w).draw = r := rfl
@[simp] theorem State.fetched_drawIndex (r : Byte) (w : Word) : (s.fetched r w).drawIndex = s.drawIndex + 1 := rfl

/-! ### storeData -/

@[simp] theorem State.storeData_mem (bytes : List Byte) : (s.storeData bytes).mem = s.mem.writeBlock s.cfg.memOob s.i.toNat bytes := rfl
@[simp] theorem State.storeData_v (bytes : List Byte) : (s.storeData bytes).v = s.v := rfl
@[simp] theorem State.storeData_i (bytes : List Byte) : (s.storeData bytes).i = s.i := rfl
@[simp] theorem State.storeData_pc (bytes : List Byte) : (s.storeData bytes).pc = s.pc := rfl
@[simp] theorem State.storeData_sp (bytes : List Byte) : (s.storeData bytes).sp = s.sp := rfl
@[simp] theorem State.storeData_stack (bytes : List Byte) : (s.storeData bytes).stack = s.stack := rfl
@[simp] theorem State.storeData_dt (bytes : List Byte) : (s.storeData bytes).dt = s.dt := rfl
@[simp] theorem State.storeData_st (bytes : List Byte) : (s.storeData bytes).st = s.st := rfl
@[simp] theorem State.storeData_video (bytes : List Byte) : (s.storeData bytes).video = s.video := rfl
@[simp] theorem State.storeData_key (bytes : List Byte) : (s.storeData bytes).key = s.key := rfl
@[simp] theorem State.storeData_opcode (bytes : List Byte) : (s.storeData bytes).opcode = s.opcode := rfl
@[simp] theorem State.storeData_fault (bytes : List Byte) : (s.storeData bytes).fault = s.fault := rfl
@[simp] theorem State.storeData_cfg (bytes : List Byte) : (s.storeData bytes).cfg = s.cfg := rfl
@[simp] theorem State.storeData_draw (bytes : List Byte) : (s.storeData bytes).draw = s.draw := rfl
@[simp] theorem State.storeData_drawIndex (bytes : List Byte) : (s.storeData bytes).drawIndex = s.drawIndex := rfl

/-! ### setKey -/

@[simp] theorem State.setKey_mem (k : Fin 16) (b : Bool) : (s.setKey k b).mem = s.mem := rfl
@[simp] theorem State.setKey_v (k : Fin 16) (b : Bool) : (s.setKey k b).v = s.v := rfl
@[simp] theorem State.setKey_i (k : Fin 16) (b : Bool) : (s.setKey k b).i = s.i := rfl
@[simp] theorem State.setKey_pc (k : Fin 16) (b : Bool) : (s.setKey k b).pc = s.pc := rfl
@[simp] theorem State.setKey_sp (k : Fin 16) (b : Bool) : (s.setKey k b).sp = s.sp := rfl
@[simp] theorem State.setKey_stack (k : Fin 16) (b : Bool) : (s.setKey k b).stack = s.stack := rfl
@[simp] theorem State.setKey_dt (k : Fin 16) (b : Bool) : (s.setKey k b).dt = s.dt := rfl
@[simp] theorem State.setKey_st (k : Fin 16) (b : Bool) : (s.setKey k b).st = s.st := rfl
@[simp] theorem State.setKey_video (k : Fin 16) (b : Bool) : (s.setKey k b).video = s.video := rfl
@[simp] theorem State.setKey_key (k : Fin 16) (b : Bool) : (s.setKey k b).key = s.key.set k.val b := rfl
@[simp] theorem State.setKey_opcode (k : Fin 16) (b : Bool) : (s.setKey k b).opcode = s.opcode := rfl
@[simp] theorem State.setKey_fault (k : Fin 16) (b : Bool) : (s.setKey k b).fault = s.fault := rfl
@[simp] theorem State.setKey_cfg (k : Fin 16) (b : Bool) : (s.setKey k b).cfg = s.cfg := rfl
@[simp] theorem State.setKey_draw (k : Fin 16) (b : Bool) : (s.setKey k b).draw = s.draw := rfl
@[simp] theorem State.setKey_drawIndex (k : Fin 16) (b : Bool) : (s.setKey k b).drawIndex = s.drawIndex := rfl

/-! ### skipIf -/

@[simp] theorem State.skipIf_mem (b : Bool) : (s.skipIf b).mem = s.mem := by cases b <;> rfl
@[simp] theorem State.skipIf_v (b : Bool) : (s.skipIf b).v = s.v := by cases b <;> rfl
@[simp] theorem State.skipIf_i (b : Bool) : (s.skipIf b).i = s.i := by cases b <;> rfl
@[simp] theorem State.skipIf_pc (b : Bool) : (s.skipIf b).pc = if b then s.pc + 2 else s.pc := by
  cases b <;> rfl
@[simp] theorem State.skipIf_sp (b : Bool) : (s.skipIf b).sp = s.sp := by cases b <;> rfl
@[simp] theorem State.skipIf_stack (b : Bool) : (s.skipIf b).stack = s.stack := by cases b <;> rfl
@[simp] theorem State.skipIf_dt (b : Bool) : (s.skipIf b).dt = s.dt := by cases b <;> rfl
@[simp] theorem State.skipIf_st (b : Bool) : (s.skipIf b).st = s.st := by cases b <;> rfl
@[simp] theorem State.skipIf_video (b : Bool) : (s.skipIf b).video = s.video := by cases b <;> rfl
@[simp] theorem State.skipIf_key (b : Bool) : (s.skipIf b).key = s.key := by cases b <;> rfl
@[simp] theorem State.skipIf_opcode (b : Bool) : (s.skipIf b).opcode = s.opcode := by cases b <;> rfl
@[simp] theorem State.skipIf_fault (b : Bool) : (s.skipIf b).fault = s.fault := by cases b <;> rfl
@[simp] theorem State.skipIf_cfg (b : Bool) : (s.skipIf b).cfg = s.cfg := by cases b <;> rfl
@[simp] theorem State.skipIf_draw (b : Bool) : (s.skipIf b).draw = s.draw := by cases b <;> rfl
@[simp] theorem State.skipIf_drawIndex (b : Bool) : (s.skipIf b).drawIndex = s.drawIndex := by cases b <;> rfl

/-! ### Registers, stack entries, keys -/

theorem State.reg_setReg (r q : Reg) (b : Byte) :
    (s.setReg r b).reg q = if q = r then b else s.reg q := by
  simp only [State.reg, State.setReg, Vector.getElem_set, Fin.ext_iff, eq_comm]

@[simp] theorem State.reg_setReg_self (r : Reg) (b : Byte) : (s.setReg r b).reg r = b := by
  simp [State.reg_setReg]

theorem State.reg_setReg_of_ne (r q : Reg) (b : Byte) (h : q ≠ r) : (s.setReg r b).reg q = s.reg q := by
  simp [State.reg_setReg, h]

/-- A state with the same register file has the same registers. -/
theorem State.reg_congr (t : State) (h : t.v = s.v) (r : Reg) : t.reg r = s.reg r := by
  simp only [State.reg, h]

theorem State.pressed_setKey (k q : Fin 16) (b : Bool) :
    (s.setKey k b).pressed q = if q = k then b else s.pressed q := by
  simp only [State.pressed, State.setKey, Vector.getElem_set, Fin.ext_iff, eq_comm]

theorem State.reg_regsLoaded (x r : Reg) :
    State.reg { s with v := s.regsLoaded x } r = if r ≤ x then s.dataByte r.val else s.reg r := by
  simp [State.reg, State.regsLoaded]

/-! ### Pixels -/

theorem Video.at_put (d : Video) (x x' : Fin 64) (y y' : Fin 32) (p : Pixel) :
    (d.put x y p).at x' y' = if x' = x ∧ y' = y then p else d.at x' y' := by
  by_cases hx : x.val = x'.val
  · have : x = x' := Fin.ext hx
    subst this
    simp [Video.at, Video.put, Vector.getElem_set, Fin.ext_iff, eq_comm]
  · have : x' ≠ x := fun h => hx (h ▸ rfl)
    simp [Video.at, Video.put, hx, this]

@[simp] theorem Video.at_blank (x : Fin 64) (y : Fin 32) : Video.blank.at x y = 0 := by
  simp [Video.at, Video.blank]

end Sys2Proof.Machine
end

