-- ==== Sys2Proof/Laws/Ops.lean ====
section
/-! SUPPORT. What each shared operation can do, said once: the provers cite these and unfold the
operations no more. -/

namespace Sys2Proof.Machine

variable (s : State)

/-! ### Frames -/

/-- A state that differs only in parts of the list, with the same registers and memory, keeps the rest. -/
theorem KeepsAllBut.of_parts (parts : List Part) (s t : State) (hv : t.v = s.v) (hm : t.mem = s.mem)
    (hp : ∀ p, p ∉ parts → p.same s t) : KeepsAllBut parts [] [] s t :=
  ⟨hp, fun r _ => State.reg_congr s t hv r, fun a _ => by rw [hm]⟩

/-- A register write keeps all but its register. -/
theorem KeepsAllBut.setReg (r : Reg) (b : Byte) : KeepsAllBut [] [r] [] s (s.setReg r b) := by
  refine ⟨fun p _ => ?_, fun q hq => ?_, fun a _ => rfl⟩
  · cases p <;> simp [Part.same, State.entry, State.pressed]
  · exact s.reg_setReg_of_ne r q b (by simpa using hq)

/-- VF then `V[x]` keeps all but the two. -/
theorem KeepsAllBut.setFlagThenReg (x : Reg) (f b : Byte) :
    KeepsAllBut [] [regF, x] [] s (s.setFlagThenReg x f b) := by
  refine ⟨fun p _ => ?_, fun q hq => ?_, fun a _ => rfl⟩
  · cases p <;> simp [Part.same, State.entry, State.pressed, State.setFlagThenReg]
  · simp only [List.mem_cons, List.not_mem_nil, or_false, not_or] at hq
    simp [State.setFlagThenReg, State.reg_setReg, hq.1, hq.2]

/-! ### Faults -/

@[simp] theorem raise_eq (c : FaultCause) (a : Word) : raise c a s = .next (s.latch (s.record c a)) := rfl

@[simp] theorem timerTick_toNat (b : Byte) : (timerTick b).toNat = b.toNat - 1 := by
  unfold timerTick
  split
  · have h1 : (1 : Byte).toNat = 1 := rfl
    rw [BitVec.toNat_sub_of_le (by rw [BitVec.le_def]; omega), h1]
  · omega

/-- The two ends of a cycle (R253, R260). -/
theorem settle_of_none (s0 t : State) (h : t.fault = none) : settle s0 t = t.tick := by
  simp [settle, h]

theorem settle_of_some (s0 t : State) (r : FaultRecord) (h : t.fault = some r) :
    settle s0 t = s0.latch r := by
  simp [settle, h]

/-! ### The call stack -/

/-- A push that has room (R134). -/
theorem push_of_room (after : State → State) (h : s.sp.val < 16) :
    push after s =
      .next (after { s with stack := s.stack.set s.sp.val s.pc, sp := ⟨s.sp.val + 1, by omega⟩ }) := by
  simp [push, h]

theorem push_of_full (after : State → State) (h : s.sp = 16) :
    push after s = .next (s.latch (s.record .stackOverflow 0)) := by
  simp [push, h]

/-- A pop of an entry (R132). -/
theorem pop_of_entry (after : Word → State → State) (h : 0 < s.sp.val) :
    pop after s =
      .next (after (s.entry ⟨s.sp.val - 1, by omega⟩) { s with sp := ⟨s.sp.val - 1, by omega⟩ }) := by
  simp [pop, h, State.entry]

theorem pop_of_empty (after : Word → State → State) (h : s.sp = 0) :
    pop after s = .next (s.latch (s.record .stackUnderflow 0)) := by
  simp [pop, h]

/-! ### Data memory -/

theorem dataFault_eq_none (count : Nat) : s.dataFault count = none ↔ s.DataInBounds count := by
  simp [State.dataFault, State.DataInBounds, firstOutOfBounds_eq_none]

/-- The check passed: the instruction has its effect. -/
theorem withData_of_inBounds (count : Nat) (effect : State) (h : s.DataInBounds count) :
    withData count effect s = .next effect := by
  rw [← dataFault_eq_none] at h
  simp [withData, h]

/-- The check failed: `DataOutOfBounds` at the lowest address above 0xFFF. -/
theorem withData_of_not (count : Nat) (effect : State) (h : ¬ s.DataInBounds count) :
    withData count effect s =
      .next (s.latch (s.record .dataOutOfBounds (BitVec.ofNat 16 (max s.i.toNat memorySize)))) := by
  rw [← dataFault_eq_none] at h
  obtain ⟨a, ha⟩ := Option.ne_none_iff_exists'.1 h
  have hm := ((firstOutOfBounds_eq_some _ _ _ _).1 ha).2.2.2
  simp [withData, ha, hm]

/-- The stored bytes, and nothing else (R65). -/
theorem read_storeData (bytes : List Byte) (hlen : bytes.length ≤ 16) (k : Nat) (hk : k < bytes.length) :
    (s.storeData bytes).mem.read (s.dataIndex k) = bytes[k] :=
  Memory.read_writeBlock _ _ _ _ (hlen.trans (by decide)) k hk

theorem read_storeData_of_not_mem (bytes : List Byte) (a : Nat) (h : a ∉ s.dataIndices bytes.length) :
    (s.storeData bytes).mem.read a = s.mem.read a := by
  refine Memory.read_writeBlock_of_ne _ _ _ _ _ fun k hk e => h ?_
  exact List.mem_map.2 ⟨k, List.mem_range.2 hk, e.symm⟩

/-- A store keeps all but the bytes it stores. -/
theorem KeepsAllBut.storeData (bytes : List Byte) :
    KeepsAllBut [] [] (s.dataIndices bytes.length) s (s.storeData bytes) := by
  refine ⟨fun p _ => ?_, fun _ _ => rfl, fun a ha => read_storeData_of_not_mem s bytes a ha⟩
  cases p <;> simp [Part.same, State.entry, State.pressed]

/-- A store whose addresses were checked keeps the canonical form of memory. -/
theorem wf_storeData (bytes : List Byte) (h : s.DataInBounds bytes.length) (hm : s.mem.wf = true) :
    (s.storeData bytes).mem.wf = true := by
  rcases bytes with _ | ⟨b, rest⟩
  · exact hm
  · refine Memory.wf_writeBlock _ _ _ _ ?_ hm
    rcases h with h | h | h
    · exact .inl h
    · exact .inr h
    · simp at h

/-! ### The keypad -/

/-- All that a key test can answer (R230). -/
theorem keyTest_of_lt (v : Byte) (h : v.toNat < 16) : s.keyTest v = some (s.pressed ⟨v.toNat, h⟩) := by
  simp [State.keyTest, h]

theorem keyTest_of_ge (v : Byte) (h : 16 ≤ v.toNat) :
    s.keyTest v = match s.cfg.keyOob with
      | .fault => none
      | .notPressed => some false
      | .lowNibble => some (s.pressed ⟨v.toNat % 16, Nat.mod_lt _ (by omega)⟩) := by
  cases hk : s.cfg.keyOob <;> simp [State.keyTest, show ¬ v.toNat < 16 by omega, hk]

theorem keyTest_eq_none (v : Byte) : s.keyTest v = none ↔ s.cfg.keyOob = .fault ∧ 16 ≤ v.toNat := by
  by_cases h : v.toNat < 16
  · simp [keyTest_of_lt s v h]; omega
  · rw [keyTest_of_ge s v (by omega)]
    cases hk : s.cfg.keyOob <;> simp; omega

/-- No key is pressed. -/
theorem firstKey_eq_none : s.firstKey = none ↔ ∀ k, s.pressed k = false := by
  simp [State.firstKey]

/-- The key it answers is pressed and no lower one is (R235). -/
theorem firstKey_eq_some (k : Fin 16) (h : s.firstKey = some k) :
    s.pressed k = true ∧ ∀ j, j < k → s.pressed j = false := by
  rw [State.firstKey, List.find?_eq_some_iff_getElem] at h
  obtain ⟨h1, i, hi, h2, h3⟩ := h
  refine ⟨h1, fun j hj => ?_⟩
  have h2 : (⟨i, by simpa using hi⟩ : Fin 16) = k := by simpa [List.getElem_finRange] using h2
  have := h3 j.val (by rw [← h2] at hj; exact hj)
  simpa [List.getElem_finRange] using this

/-! ### Fetch and cycle -/

theorem fetchFault_eq_none : s.fetchFault = none ↔ s.cfg.memOob = .wrap12 ∨ s.pc.toNat + 2 ≤ memorySize := by
  simp [State.fetchFault, firstOutOfBounds_eq_none]

theorem fetchFault_eq_some (a : Nat) :
    s.fetchFault = some a ↔ s.cfg.memOob = .fault ∧ 0xFFE < s.pc.toNat ∧ a = max s.pc.toNat memorySize := by
  simp only [State.fetchFault, firstOutOfBounds_eq_some, memorySize]
  constructor
  · rintro ⟨h1, _, h2, h3⟩; exact ⟨h1, by omega, h3⟩
  · rintro ⟨h1, h2, h3⟩; exact ⟨h1, by omega, by omega, h3⟩

/-- The three ways a cycle can go (R100): a latched core, a fault of the fetch, an instruction run. -/
theorem cycle_of_faulted (r : Byte) (f : FaultRecord) (h : s.fault = some f) : cycle r s = .next s := by
  simp [cycle, h]

theorem cycle_of_fetchFault (r : Byte) (a : Nat) (h : s.fault = none) (hf : s.fetchFault = some a) :
    cycle r s = .next (s.latch (s.fetchRecord a)) := by
  simp [cycle, h, hf]

theorem cycle_of_fetch (r : Byte) (h : s.fault = none) (hf : s.fetchFault = none) :
    cycle r s = runWord r s.fetchWord s := by
  simp [cycle, h, hf]

/-- An instruction that answers a next state ends the cycle as `settle` says. -/
theorem runWord_of_next (r : Byte) (w : Word) (t : State)
    (h : exec (decodeWord s.cfg w) (s.fetched r w) = .next t) : runWord r w s = .next (settle s t) := by
  simp [runWord, h]

end Sys2Proof.Machine
end

