-- ==== Sys2Proof/Laws/PerInstr.lean ====
section
/-! SUPPORT. The family `InItsRow`: the encoder's word of an instruction is one that the instruction's row
of the opcode map covers (spec/30_encoding.md R92 against R120), one lemma per instruction. -/

namespace Sys2Proof.Laws

/-- A word's masks, where its number is known. -/
theorem covers_F000 (w m : Word) (op rest : Nat) (hw : w.toNat = op * 0x1000 + rest) (hr : rest < 0x1000)
    (hm : m.toNat = op * 0x1000) : w &&& 0xF000 = m := by
  apply BitVec.eq_of_toNat_eq
  rw [maskF000_toNat, fieldOp_val]
  omega

theorem covers_F00F (w m : Word) (op mid low : Nat) (hw : w.toNat = (op * 0x100 + mid) * 0x10 + low)
    (hmid : mid < 0x100) (hl : low < 0x10) (hm : m.toNat = op * 0x1000 + low) : w &&& 0xF00F = m := by
  apply BitVec.eq_of_toNat_eq
  rw [maskF00F_toNat, fieldOp_val, fieldN_val]
  omega

theorem covers_F0FF (w m : Word) (op x low : Nat) (hw : w.toNat = (op * 0x10 + x) * 0x100 + low)
    (hx : x < 0x10) (hl : low < 0x100) (hm : m.toNat = op * 0x1000 + low) : w &&& 0xF0FF = m := by
  apply BitVec.eq_of_toNat_eq
  rw [maskF0FF_toNat, fieldOp_val, fieldKK_toNat]
  omega

theorem formatFA_covers (op : BitVec 4) (m : Word) (nnn : Addr12) (hm : m.toNat = op.toNat * 0x1000) :
    formatFA op nnn &&& 0xF000 = m :=
  covers_F000 _ m op.toNat nnn.toNat (formatFA_toNat op nnn) nnn.isLt hm

theorem formatFXK_covers (op : BitVec 4) (m : Word) (x : Reg) (kk : Byte) (hm : m.toNat = op.toNat * 0x1000) :
    formatFXK op x kk &&& 0xF000 = m :=
  covers_F000 _ m op.toNat (x.val * 0x100 + kk.toNat) (by rw [formatFXK_toNat]; omega) (by omega) hm

theorem formatFXK_covers_low (op : BitVec 4) (m : Word) (x : Reg) (kk : Byte)
    (hm : m.toNat = op.toNat * 0x1000 + kk.toNat) : formatFXK op x kk &&& 0xF0FF = m :=
  covers_F0FF _ m op.toNat x.val kk.toNat (formatFXK_toNat op x kk) x.isLt kk.isLt hm

theorem formatFXYN_covers (op : BitVec 4) (m : Word) (x y : Reg) (n : BitVec 4)
    (hm : m.toNat = op.toNat * 0x1000) : formatFXYN op x y n &&& 0xF000 = m :=
  covers_F000 _ m op.toNat (x.val * 0x100 + y.val * 0x10 + n.toNat) (by rw [formatFXYN_toNat]; omega)
    (by omega) hm

theorem formatFXYN_covers_low (op : BitVec 4) (m : Word) (x y : Reg) (n : BitVec 4)
    (hm : m.toNat = op.toNat * 0x1000 + n.toNat) : formatFXYN op x y n &&& 0xF00F = m :=
  covers_F00F _ m op.toNat (x.val * 0x10 + y.val) n.toNat (by rw [formatFXYN_toNat]; omega) (by omega)
    n.isLt hm

namespace InItsRow

/-- The row of the default opcode map with the instruction's number covers the encoder's word. -/
def Statement (i : Instr) : Prop :=
  ∃ r ∈ opcodeRows Config.default, r.number = i.rowNumber ∧ encode i &&& r.mask = r.bits

theorem sys (nnn : Addr12) : Statement (.sys nnn) :=
  ⟨⟨1, 0xF000, 0x0000⟩, by decide, rfl, formatFA_covers _ _ _ rfl⟩

theorem cls : Statement (.cls) :=
  ⟨⟨2, 0xFFFF, 0x00E0⟩, by decide, rfl, rfl⟩

theorem ret : Statement (.ret) :=
  ⟨⟨3, 0xFFFF, 0x00EE⟩, by decide, rfl, rfl⟩

theorem jp (nnn : Addr12) : Statement (.jp nnn) :=
  ⟨⟨4, 0xF000, 0x1000⟩, by decide, rfl, formatFA_covers _ _ _ rfl⟩

theorem call (nnn : Addr12) : Statement (.call nnn) :=
  ⟨⟨5, 0xF000, 0x2000⟩, by decide, rfl, formatFA_covers _ _ _ rfl⟩

theorem seByte (x : Reg) (kk : Byte) : Statement (.seByte x kk) :=
  ⟨⟨6, 0xF000, 0x3000⟩, by decide, rfl, formatFXK_covers _ _ _ _ rfl⟩

theorem sneByte (x : Reg) (kk : Byte) : Statement (.sneByte x kk) :=
  ⟨⟨7, 0xF000, 0x4000⟩, by decide, rfl, formatFXK_covers _ _ _ _ rfl⟩

theorem seReg (x y : Reg) : Statement (.seReg x y) :=
  ⟨⟨8, 0xF000, 0x5000⟩, by decide, rfl, formatFXYN_covers _ _ _ _ _ rfl⟩

theorem ldByte (x : Reg) (kk : Byte) : Statement (.ldByte x kk) :=
  ⟨⟨9, 0xF000, 0x6000⟩, by decide, rfl, formatFXK_covers _ _ _ _ rfl⟩

theorem addByte (x : Reg) (kk : Byte) : Statement (.addByte x kk) :=
  ⟨⟨10, 0xF000, 0x7000⟩, by decide, rfl, formatFXK_covers _ _ _ _ rfl⟩

theorem ldReg (x y : Reg) : Statement (.ldReg x y) :=
  ⟨⟨11, 0xF00F, 0x8000⟩, by decide, rfl, formatFXYN_covers_low _ _ _ _ _ rfl⟩

theorem or (x y : Reg) : Statement (.or x y) :=
  ⟨⟨12, 0xF00F, 0x8001⟩, by decide, rfl, formatFXYN_covers_low _ _ _ _ _ rfl⟩

theorem and (x y : Reg) : Statement (.and x y) :=
  ⟨⟨13, 0xF00F, 0x8002⟩, by decide, rfl, formatFXYN_covers_low _ _ _ _ _ rfl⟩

theorem xor (x y : Reg) : Statement (.xor x y) :=
  ⟨⟨14, 0xF00F, 0x8003⟩, by decide, rfl, formatFXYN_covers_low _ _ _ _ _ rfl⟩

theorem addReg (x y : Reg) : Statement (.addReg x y) :=
  ⟨⟨15, 0xF00F, 0x8004⟩, by decide, rfl, formatFXYN_covers_low _ _ _ _ _ rfl⟩

theorem sub (x y : Reg) : Statement (.sub x y) :=
  ⟨⟨16, 0xF00F, 0x8005⟩, by decide, rfl, formatFXYN_covers_low _ _ _ _ _ rfl⟩

theorem shr (x y : Reg) : Statement (.shr x y) :=
  ⟨⟨17, 0xF00F, 0x8006⟩, by decide, rfl, formatFXYN_covers_low _ _ _ _ _ rfl⟩

theorem subn (x y : Reg) : Statement (.subn x y) :=
  ⟨⟨18, 0xF00F, 0x8007⟩, by decide, rfl, formatFXYN_covers_low _ _ _ _ _ rfl⟩

theorem shl (x y : Reg) : Statement (.shl x y) :=
  ⟨⟨19, 0xF00F, 0x800E⟩, by decide, rfl, formatFXYN_covers_low _ _ _ _ _ rfl⟩

theorem sneReg (x y : Reg) : Statement (.sneReg x y) :=
  ⟨⟨20, 0xF000, 0x9000⟩, by decide, rfl, formatFXYN_covers _ _ _ _ _ rfl⟩

theorem ldI (nnn : Addr12) : Statement (.ldI nnn) :=
  ⟨⟨21, 0xF000, 0xA000⟩, by decide, rfl, formatFA_covers _ _ _ rfl⟩

theorem jpV0 (nnn : Addr12) : Statement (.jpV0 nnn) :=
  ⟨⟨22, 0xF000, 0xB000⟩, by decide, rfl, formatFA_covers _ _ _ rfl⟩

theorem rnd (x : Reg) (kk : Byte) : Statement (.rnd x kk) :=
  ⟨⟨23, 0xF000, 0xC000⟩, by decide, rfl, formatFXK_covers _ _ _ _ rfl⟩

theorem drw (x y : Reg) (n : Fin 16) : Statement (.drw x y n) :=
  ⟨⟨24, 0xF000, 0xD000⟩, by decide, rfl, formatFXYN_covers _ _ _ _ _ rfl⟩

theorem skp (x : Reg) : Statement (.skp x) :=
  ⟨⟨25, 0xF0FF, 0xE09E⟩, by decide, rfl, formatFXK_covers_low _ _ _ _ rfl⟩

theorem sknp (x : Reg) : Statement (.sknp x) :=
  ⟨⟨26, 0xF0FF, 0xE0A1⟩, by decide, rfl, formatFXK_covers_low _ _ _ _ rfl⟩

theorem ldVxDt (x : Reg) : Statement (.ldVxDt x) :=
  ⟨⟨27, 0xF0FF, 0xF007⟩, by decide, rfl, formatFXK_covers_low _ _ _ _ rfl⟩

theorem ldVxK (x : Reg) : Statement (.ldVxK x) :=
  ⟨⟨28, 0xF0FF, 0xF00A⟩, by decide, rfl, formatFXK_covers_low _ _ _ _ rfl⟩

theorem ldDtVx (x : Reg) : Statement (.ldDtVx x) :=
  ⟨⟨29, 0xF0FF, 0xF015⟩, by decide, rfl, formatFXK_covers_low _ _ _ _ rfl⟩

theorem ldStVx (x : Reg) : Statement (.ldStVx x) :=
  ⟨⟨30, 0xF0FF, 0xF018⟩, by decide, rfl, formatFXK_covers_low _ _ _ _ rfl⟩

theorem addI (x : Reg) : Statement (.addI x) :=
  ⟨⟨31, 0xF0FF, 0xF01E⟩, by decide, rfl, formatFXK_covers_low _ _ _ _ rfl⟩

theorem ldF (x : Reg) : Statement (.ldF x) :=
  ⟨⟨32, 0xF0FF, 0xF029⟩, by decide, rfl, formatFXK_covers_low _ _ _ _ rfl⟩

theorem ldB (x : Reg) : Statement (.ldB x) :=
  ⟨⟨33, 0xF0FF, 0xF033⟩, by decide, rfl, formatFXK_covers_low _ _ _ _ rfl⟩

theorem stRegs (x : Reg) : Statement (.stRegs x) :=
  ⟨⟨34, 0xF0FF, 0xF055⟩, by decide, rfl, formatFXK_covers_low _ _ _ _ rfl⟩

theorem ldRegs (x : Reg) : Statement (.ldRegs x) :=
  ⟨⟨35, 0xF0FF, 0xF065⟩, by decide, rfl, formatFXK_covers_low _ _ _ _ rfl⟩

theorem nop (w : Word) : Statement (.nop w) :=
  ⟨⟨36, 0x0000, 0x0000⟩, by decide, rfl, BitVec.and_zero⟩

end InItsRow

end Sys2Proof.Laws
end

