-- ==== Sys2Proof/Tests/Slice0.lean ====
section
/-! SUPPORT. Tests. Expected values are those of spec/95_test_vectors.md (the vector is named at each test)
or are written out from the spec's encodings; `witness_` theorems show that the hypotheses of the
statements can be met, each clause at the ends of its range. -/

namespace Sys2Proof.Tests

open Sys2Proof Sys2Proof.Machine

/-! ### Configurations and small states -/

def lowByte : Config := { Config.default with group0 := .lowByte }
def strict : Config := { Config.default with strict59 := true }
def wrap : Config := { Config.default with memOob := .wrap12 }
def sequential : Config := { Config.default with aluOrder := .sequential }
def notPressed : Config := { Config.default with keyOob := .notPressed }
def lowNibble : Config := { Config.default with keyOob := .lowNibble }

/-- The reset state under a configuration. -/
def onCfg (c : Config) : State := { State.reset with cfg := c }

/-- Registers set one after another. -/
def withRegs (s : State) (l : List (Reg × Byte)) : State := l.foldl (fun t c => t.setReg c.1 c.2) s

/-- The reset state with these registers. -/
def regs (l : List (Reg × Byte)) : State := withRegs State.reset l

/-- Bytes stored from an address on. -/
def withBytes (s : State) (a : Nat) (l : List Byte) : State := { s with mem := s.mem.writeBlock .fault a l }

/-- The state an outcome holds, else the given one. -/
def answer (s : State) : Result → State
  | .next t => t
  | .fault _ => s
  | .refused _ => s

/-- One cycle with the word at the pc and the draw `r`. -/
def ran (s : State) (w : Word) (r : Byte := 0) : State := answer s (cycle r (s.placeWord w))

/-- One instruction, on the state a fetch left. -/
def did (i : Instr) (s : State) : State := answer s (exec i s)

/-! ### Decoding: every constructor from its word, written out bit by bit from R120's pattern -/

theorem test_decode_groups_0_to_2 :
    [0b0000000100100011, 0b0000000011100000, 0b0000000011101110, 0b0001001000110100, 0b0010001000010000].map
      (decodeWord Config.default) = [.sys 0x123, .cls, .ret, .jp 0x234, .call 0x210] := by decide

theorem test_decode_groups_3_to_7_and_9 :
    [0b0011001100010010, 0b0100001100010011, 0b0101000100100000, 0b0110101000111100, 0b0111000011111111,
      0b1001111000010000].map (decodeWord Config.default)
      = [.seByte 3 0x12, .sneByte 3 0x13, .seReg 1 2, .ldByte 10 0x3C, .addByte 0 0xFF, .sneReg 14 1] := by
  decide

theorem test_decode_group_8 :
    [0b1000000100100000, 0b1000000100100001, 0b1000000100100010, 0b1000000100100011, 0b1000000100100100,
      0b1000000100100101, 0b1000000100100110, 0b1000000100100111, 0b1000000100101110,
      0b1000000100101000].map (decodeWord Config.default)
      = [.ldReg 1 2, .or 1 2, .and 1 2, .xor 1 2, .addReg 1 2, .sub 1 2, .shr 1 2, .subn 1 2, .shl 1 2,
        .nop 0x8128] := by decide

theorem test_decode_groups_A_to_D :
    [0b1010001000000000, 0b1011001100000000, 0b1100001100001111, 0b1101000100100101].map
      (decodeWord Config.default) = [.ldI 0x200, .jpV0 0x300, .rnd 3 0x0F, .drw 1 2 5] := by decide

theorem test_decode_groups_E_and_F :
    [0b1110001110011110, 0b1110001110100001, 0b1111010000000111, 0b1111010000001010, 0b1111010000010101,
      0b1111010000011000, 0b1111010000011110, 0b1111010000101001, 0b1111010000110011, 0b1111010001010101,
      0b1111010001100101, 0b1111111111111111].map (decodeWord Config.default)
      = [.skp 3, .sknp 3, .ldVxDt 4, .ldVxK 4, .ldDtVx 4, .ldStVx 4, .addI 4, .ldF 4, .ldB 4, .stRegs 4,
        .ldRegs 4, .nop 0xFFFF] := by decide

/-- R112 under `LowByte` (E5), and R113 under `STRICT_5_9` (B16, B19). -/
theorem test_decode_parameters :
    decodeWord lowByte 0x01EE = .ret ∧ decodeWord lowByte 0x01E0 = .cls ∧ decodeWord strict 0x5011 = .nop 0x5011
      ∧ decodeWord strict 0x9011 = .nop 0x9011 ∧ decodeWord strict 0x5010 = .seReg 0 1 := by decide

/-- Too few bytes are refused, each case by its name. -/
theorem test_decode_short_lists :
    (∃ e, decodeBytes Config.default [] = .error e ∧ e = .noBytes)
      ∧ ∃ e, decodeBytes Config.default [0x12] = .error e ∧ e = .halfWord := ⟨⟨_, rfl, rfl⟩, _, rfl, rfl⟩

/-- The host's numbering: the word 6A3C is the number 0x6A3C. -/
theorem test_decodeTableWord : decodeTableWord 16 0x6A3C = some (.ldByte 10 0x3C) := by decide

/-! ### Well-formedness: an ill-formed term for each check -/

theorem test_ill_formed_sys_of_cls_and_ret :
    (Instr.sys 0x0E0).wellFormed Config.default = false ∧ (Instr.sys 0x0EE).wellFormed Config.default = false
      ∧ (Instr.sys 0x1E0).wellFormed Config.default = true := by decide

theorem test_ill_formed_sys_under_lowByte :
    (Instr.sys 0x1E0).wellFormed lowByte = false ∧ (Instr.sys 0xFEE).wellFormed lowByte = false
      ∧ (Instr.sys 0x1E1).wellFormed lowByte = true := by decide

/-- A no-op is no word of a row: of group 8, E, F, of groups 5 and 9 (unless strict with a low nibble), of
group 0 or of any other group. -/
theorem test_ill_formed_nop :
    ([0x8127, 0x812E, 0xE39E, 0xE3A1, 0xF007, 0xF065, 0x5011, 0x9011, 0x0123, 0x6000].all fun w =>
        !(Instr.nop w).wellFormed Config.default) = true
      ∧ ([0x5010, 0x9010].all fun w => !(Instr.nop w).wellFormed strict) = true
      ∧ ([0x8128, 0x812F, 0xE39F, 0xF000, 0xFFFF].all fun w => (Instr.nop w).wellFormed Config.default) = true
      ∧ (Instr.nop 0x5011).wellFormed strict = true := by decide

/-! ### One step, vectors of spec/95_test_vectors.md -/

/-- E2, E10. -/
theorem test_sys : (ran State.reset 0x0123).pc = 0x202 ∧ (ran State.reset 0x0123).opcode = 0x0123 := by decide

/-- E10. -/
theorem test_nop : let t := ran { State.reset with dt := 5, st := 3 } 0x8008
    t.pc = 0x202 ∧ t.dt = 4 ∧ t.st = 2 := by decide

/-- D1. -/
theorem test_cls : let t := ran { regs [(15, 3)] with video := Video.blank.put 5 5 1 } 0x00E0
    t.video.at 5 5 = 0 ∧ t.video.at 0 0 = 0 ∧ t.reg 15 = 3 := by decide

/-- B8: the popped value is masked. -/
theorem test_ret : let t := ran { State.reset with sp := 1, stack := State.reset.stack.set 0 0x1000 } 0x00EE
    t.sp = 0 ∧ t.pc = 0 ∧ t.entry 0 = 0x1000 := by decide

/-- B6. -/
theorem test_ret_underflow :
    (ran State.reset 0x00EE).fault = some ⟨.stackUnderflow, 0x200, 0x00EE, 0⟩ := by decide

/-- B1. -/
theorem test_jp : (ran State.reset 0x1234).pc = 0x234 := by decide

/-- B4. -/
theorem test_call : let t := ran State.reset 0x2210
    t.entry 0 = 0x202 ∧ t.sp = 1 ∧ t.pc = 0x210 := by decide

/-- B5. -/
theorem test_call_overflow :
    (ran { State.reset with sp := 16 } 0x2300).fault = some ⟨.stackOverflow, 0x200, 0x2300, 0⟩ := by decide

/-- B9, B10. -/
theorem test_seByte : (ran (regs [(3, 0x12)]) 0x3312).pc = 0x204 ∧ (ran (regs [(3, 0x12)]) 0x3313).pc = 0x202 := by
  decide

/-- B12, B13. -/
theorem test_sneByte : (ran (regs [(3, 0x12)]) 0x4313).pc = 0x204 ∧ (ran (regs [(3, 0x12)]) 0x4312).pc = 0x202 := by
  decide

/-- B15. -/
theorem test_seReg : (ran State.reset 0x5011).pc = 0x204 := by decide

/-- B23: a skip from 0xFFE is not masked. -/
theorem test_seReg_at_top : (ran { State.reset with pc := 0xFFE } 0x5000).pc = 0x1002 := by decide

/-- B17, B19. -/
theorem test_sneReg : (ran (regs [(0, 1)]) 0x9010).pc = 0x204
    ∧ (ran (withRegs (onCfg strict) [(0, 1)]) 0x9011).pc = 0x202 := by decide

/-- B21, B22. -/
theorem test_jpV0 : (ran (regs [(0, 0xFF)]) 0xBFFF).pc = 0x0FE ∧ (ran (regs [(3, 5)]) 0xB300).pc = 0x300 := by
  decide

/-- A1. -/
theorem test_ldByte : (ran State.reset 0x6A3C).reg 10 = 0x3C := by decide

/-- A3. -/
theorem test_addByte : let t := ran (regs [(0, 1), (15, 9)]) 0x70FF
    t.reg 0 = 0 ∧ t.reg 15 = 9 := by decide

/-- A4. -/
theorem test_ldReg : (ran (regs [(1, 7)]) 0x8010).reg 0 = 7 := by decide

/-- A5. -/
theorem test_or : let t := ran (regs [(0, 0x0F), (1, 0xF0), (15, 9)]) 0x8011
    t.reg 0 = 0xFF ∧ t.reg 15 = 9 := by decide

/-- A6. -/
theorem test_and : (ran (regs [(0, 0x3C), (1, 0x0F)]) 0x8012).reg 0 = 0x0C := by decide

/-- A7. -/
theorem test_xor : (ran (regs [(0, 0xFF), (1, 0x0F)]) 0x8013).reg 0 = 0xF0 := by decide

/-- A10. -/
theorem test_addReg : let t := ran (regs [(0, 0x80), (1, 0x80)]) 0x8014
    t.reg 0 = 0 ∧ t.reg 15 = 1 := by decide

/-- A24. -/
theorem test_addReg_on_VF : (ran (regs [(15, 0xFF), (1, 1)]) 0x8F14).reg 15 = 0 := by decide

/-- A13. -/
theorem test_sub_equal : let t := ran (regs [(0, 5), (1, 5)]) 0x8015
    t.reg 0 = 0 ∧ t.reg 15 = 0 := by decide

/-- A27. -/
theorem test_sub_on_VF : (ran (regs [(15, 5), (0, 3)]) 0x8F05).reg 15 = 2
    ∧ (ran (withRegs (onCfg sequential) [(15, 5), (0, 3)]) 0x8F05).reg 15 = 0xFE := by decide

/-- A19. -/
theorem test_shr : let t := ran (regs [(0, 0xFF), (1, 2)]) 0x8016
    t.reg 0 = 0x7F ∧ t.reg 15 = 1 := by decide

/-- A31. -/
theorem test_shr_on_VF : (ran (regs [(15, 3)]) 0x8F16).reg 15 = 1
    ∧ (ran (withRegs (onCfg sequential) [(15, 3)]) 0x8F16).reg 15 = 0 := by decide

/-- A14. -/
theorem test_subn_equal : let t := ran (regs [(0, 5), (1, 5)]) 0x8017
    t.reg 0 = 0 ∧ t.reg 15 = 1 := by decide

/-- A33. -/
theorem test_subn_on_VF : (ran (regs [(0, 3), (15, 5)]) 0x80F7).reg 0 = 2
    ∧ (ran (withRegs (onCfg sequential) [(0, 3), (15, 5)]) 0x80F7).reg 0 = 0xFE := by decide

/-- A21. -/
theorem test_shl : let t := ran (regs [(0, 0x81)]) 0x801E
    t.reg 0 = 2 ∧ t.reg 15 = 1 := by decide

/-- A36. -/
theorem test_shl_on_VF : (ran (regs [(15, 0xC0)]) 0x8F1E).reg 15 = 0x80
    ∧ (ran (withRegs (onCfg sequential) [(15, 0xC0)]) 0x8F1E).reg 15 = 2 := by decide

/-- A37. -/
theorem test_rnd : (ran State.reset 0xC30F 0xA7).reg 3 = 7 := by decide

/-- M2. -/
theorem test_ldI : (ran State.reset 0xAFFF).i = 0xFFF := by decide

/-- M5. -/
theorem test_addI_wraps : (ran { regs [(0, 1)] with i := 0xFFFF } 0xF01E).i = 0 := by decide

/-- M6. -/
theorem test_addI : let t := ran { regs [(0, 0xFF), (15, 7)] with i := 0x010 } 0xF01E
    t.i = 0x10F ∧ t.reg 15 = 7 := by decide

/-- M7, M10. -/
theorem test_ldF : (ran (regs [(0, 5)]) 0xF029).i = 0x069 ∧ (ran (regs [(0, 0xFF)]) 0xF029).i = 0x54B := by decide

/-- M16. -/
theorem test_ldB : (ran { regs [(10, 123)] with i := 0x300 } 0xFA33).mem.readBlock .fault 0x300 3 = [1, 2, 3] := by
  decide

/-- M19. -/
theorem test_ldB_wraps : let t := ran { withRegs (onCfg wrap) [(0, 0xFF)] with i := 0xFFE } 0xF033
    t.mem.read 0xFFE = 2 ∧ t.mem.read 0xFFF = 5 ∧ t.mem.read 0 = 5 := by decide

/-- M20. -/
theorem test_stRegs : let t := ran { regs [(0, 1), (1, 2), (2, 3), (3, 4)] with i := 0x400 } 0xF255
    t.mem.readBlock .fault 0x400 4 = [1, 2, 3, 0] ∧ t.i = 0x400 := by decide

/-- M25. -/
theorem test_stRegs_out_of_bounds : let t := ran { regs [(0, 0xAB)] with i := 0xFFF } 0xF155
    t.fault = some ⟨.dataOutOfBounds, 0x200, 0xF155, 0x1000⟩ ∧ t.mem.read 0xFFF = 0 := by decide

/-- M23. -/
theorem test_ldRegs : let t := ran (withBytes { State.reset with i := 0x300 } 0x300 [1, 2, 3, 4]) 0xF265
    t.reg 0 = 1 ∧ t.reg 1 = 2 ∧ t.reg 2 = 3 ∧ t.reg 3 = 0 := by decide

/-- M27. -/
theorem test_ldRegs_out_of_bounds :
    (ran { State.reset with i := 0x1000 } 0xF065).fault = some ⟨.dataOutOfBounds, 0x200, 0xF065, 0x1000⟩ := by
  decide

/-- Program P4 after its first draw: each pixel wraps on its own, and the pixels beside stay clear. -/
theorem test_drw_wraps :
    let t := ran (withBytes { regs [(0, 0x3F), (1, 0x1F)] with i := 0x20C } 0x20C [0xC0, 0x80]) 0xD012
    t.video.at 63 31 = 1 ∧ t.video.at 0 31 = 1 ∧ t.video.at 63 0 = 1 ∧ t.video.at 1 31 = 0 ∧ t.video.at 0 0 = 0
      ∧ t.reg 15 = 0 := by decide

/-- D5. -/
theorem test_drw_collision :
    let t := ran (withBytes { State.reset with i := 0x300, video := (Video.blank.put 0 0 1).put 7 0 1 } 0x300 [1])
      0xD011
    t.video.at 0 0 = 1 ∧ t.video.at 7 0 = 0 ∧ t.reg 15 = 1 := by decide

/-- K5. -/
theorem test_skp : (ran ((regs [(3, 7)]).setKey 7 true) 0xE39E).pc = 0x204 := by decide

/-- K9, K12. -/
theorem test_skp_out_of_range :
    (ran ((regs [(0, 0x17)]).setKey 7 true) 0xE09E).fault = some ⟨.keyIndexOutOfRange, 0x200, 0xE09E, 0x17⟩
      ∧ (ran ((withRegs (onCfg lowNibble) [(0, 0x17)]).setKey 7 true) 0xE09E).pc = 0x204 := by decide

/-- K7, K8. -/
theorem test_sknp : (ran ((regs [(0, 7)]).setKey 7 true) 0xE0A1).pc = 0x202 ∧ (ran (regs [(3, 7)]) 0xE3A1).pc = 0x204 := by
  decide

/-- K11. -/
theorem test_sknp_not_pressed : (ran (withRegs (onCfg notPressed) [(0, 0x17)]) 0xE0A1).pc = 0x204 := by decide

/-- K13. -/
theorem test_ldVxDt : let t := ran { State.reset with dt := 3 } 0xF007
    t.reg 0 = 3 ∧ t.dt = 2 := by decide

/-- K3. -/
theorem test_ldVxK : let t := ran ((State.reset.setKey 9 true).setKey 3 true) 0xF10A
    t.reg 1 = 3 ∧ t.pc = 0x202 := by decide

/-- K4. -/
theorem test_ldVxK_waits : let t := ran { State.reset with dt := 5, st := 1 } 0xF10A
    t.pc = 0x200 ∧ t.dt = 4 ∧ t.st = 0 := by decide

/-- K15. -/
theorem test_ldDtVx : (ran (regs [(0, 3)]) 0xF015).dt = 2 := by decide

/-- K17. -/
theorem test_ldStVx : (ran (regs [(0, 0x10)]) 0xF018).st = 0x0F := by decide

/-! ### The cycle and the ports -/

/-- R6: the fetch at 0xFFF fails, and the state stays. -/
theorem test_fetch_out_of_bounds : let s := { State.reset with pc := 0xFFF, opcode := 0x1FFF, dt := 2 }
    let t := answer s (cycle 0 s)
    t.fault = some ⟨.fetchOutOfBounds, 0xFFF, 0, 0x1000⟩ ∧ t.opcode = 0x1FFF ∧ t.pc = 0xFFF ∧ t.dt = 2 := by decide

/-- R11: the fetch wraps, the pc does not. -/
theorem test_fetch_wraps : let t := ran { onCfg wrap with pc := 0xFFF } 0x6122
    t.reg 1 = 0x22 ∧ t.pc = 0x1001 := by decide

/-- R4, R5. -/
theorem test_load_sizes :
    State.reset.loadProgram (List.replicate 3585 1) = none ∧ State.reset.loadProgram [] = some State.reset := by
  exact ⟨if_neg (by rw [List.length_replicate]; decide), rfl⟩

/-- L1.5: the font and the program area after reset. -/
theorem test_reset_memory : Memory.readBlock .fault [] 0x04F 6 = [0, 0xF0, 0x90, 0x90, 0x90, 0xF0]
    ∧ Memory.read [] 0x09F = 0x80 ∧ Memory.read [] 0x0A0 = 0 ∧ Memory.read [] 0x200 = 0 := by decide

/-! ### Witnesses: the hypotheses of the statements can be met -/

/-- Each check of well-formedness has terms that pass it, beside those that just fail it above. -/
theorem witness_DecodeOfEncodeIsTheInstruction :
    (Instr.sys 0x0E1).wellFormed Config.default = true ∧ (Instr.sys 0x1EE).wellFormed Config.default = true
      ∧ (Instr.sys 0x1EF).wellFormed lowByte = true ∧ (Instr.nop 0x8FFF).wellFormed Config.default = true
      ∧ (Instr.nop 0x901F).wellFormed strict = true ∧ (Instr.drw 15 15 15).wellFormed Config.default = true := by
  decide

theorem witness_EveryWordDecodesWellFormedAndWhole :
    (decodeWord Config.default 0xFFFF).rowNumber ∉ [2, 3, 8, 20]
      ∧ (decodeWord Config.default 0x0000).rowNumber ∉ [2, 3, 8, 20]
      ∧ (decodeWord strict 0x5001).rowNumber ∉ [2, 3, 8, 20] := by decide

theorem witness_OpcodeRowsDoNotOverlap :
    ∃ r ∈ opcodeRows Config.default, ∃ q ∈ opcodeRows Config.default, r.number ∉ [1, 36] ∧ q.number ∉ [1, 36]
      ∧ r.covers 0x8010 = true ∧ q.covers 0x8010 = true := by
  exact ⟨⟨11, 0xF00F, 0x8000⟩, by decide, ⟨11, 0xF00F, 0x8000⟩, by decide, by decide⟩

theorem witness_Group0DecodesByItsMatch :
    Config.default.group0 = .fullWord ∧ lowByte.group0 = .lowByte
      ∧ ([0x00E0, 0x00EE, 0x00E1, 0x01E0, 0x0FEE, 0x0000, 0x0FFF].all fun w => fieldOp w == 0) = true
      ∧ fieldKK 0x01E0 = 0xE0 ∧ fieldKK 0x0FEE = 0xEE ∧ fieldKK 0x0FFF ≠ 0xE0 ∧ fieldKK 0x0FFF ≠ 0xEE := by
  decide

theorem witness_Groups5And9IgnoreTheLowNibbleUnlessStrict :
    Config.default.strict59 = false ∧ fieldN 0x501F ≠ 0 ∧ fieldOp 0x501F = 5 ∧ fieldOp 0x901F = 9
      ∧ strict.strict59 = true ∧ fieldN 0x5FF0 = 0 ∧ fieldOp 0x5FF0 = 5 ∧ fieldOp 0x9FF0 = 9
      ∧ fieldN 0x9001 ≠ 0 := by decide

/-- Every selector value, in words whose other fields are at their highest value. -/
theorem witness_Groups8EAndFSelectByTheirSecondField :
    (∀ n : Fin 16, fieldOp (formatFXYN 8 15 15 (nibble n)) = 8 ∧ fieldN (formatFXYN 8 15 15 (nibble n)) = n)
      ∧ ([0x9E, 0xA1, 0x00, 0xFF].all fun kk =>
          fieldOp (formatFXK 0xE 15 kk) == 0xE && fieldKK (formatFXK 0xE 15 kk) == kk) = true
      ∧ ([0x07, 0x0A, 0x15, 0x18, 0x1E, 0x29, 0x33, 0x55, 0x65, 0x00, 0xFF].all fun kk =>
          fieldOp (formatFXK 0xF 15 kk) == 0xF && fieldKK (formatFXK 0xF 15 kk) == kk) = true := by decide

/-- The last pc that can be fetched from, under `Fault`, and the one past it under `Wrap12`; an instruction
that raises nothing, and one that raises. -/
theorem witness_StepRunsTheDecodedInstruction :
    let s := ({ State.reset with pc := 0xFFE }).placeWord 0x6A3C
    let s' := ({ onCfg wrap with pc := 0xFFF }).placeWord 0x00EE
    s.fault = none ∧ s.pc.toNat + 1 ≤ 0xFFF ∧ s.mem.read (memIndex s.cfg.memOob s.pc.toNat) = 0x6A
      ∧ s.mem.read (memIndex s.cfg.memOob (s.pc.toNat + 1)) = 0x3C
      ∧ (did (.ldByte 10 0x3C) (s.fetched (Config.randomByte s.drawIndex) 0x6A3C)).fault = none
      ∧ s'.fault = none ∧ s'.cfg.memOob = .wrap12 ∧ s'.mem.read (memIndex s'.cfg.memOob s'.pc.toNat) = 0x00
      ∧ s'.mem.read (memIndex s'.cfg.memOob (s'.pc.toNat + 1)) = 0xEE
      ∧ (did .ret (s'.fetched (Config.randomByte s'.drawIndex) 0x00EE)).fault ≠ none := by decide

theorem witness_decodeBytes :
    decodeBytes Config.default [0x6A, 0x3C] = .ok (.ldByte 10 0x3C, []) ∧ decodeBytes wrap [0x00, 0xEE] = .ok (.ret, []) :=
  ⟨rfl, rfl⟩

/-- A latched fault; a pc at, and past, the end of memory; the last pc that can be fetched from; `Wrap12` at
the highest pc; an instruction that raises and one that does not. -/
theorem witness_CycleFetchesExecutesAndTicks :
    (State.reset.latch ⟨.stackOverflow, 0, 0, 0⟩).fault ≠ none ∧ State.reset.fault = none
      ∧ State.reset.cfg.memOob = .fault ∧ 0xFFE < (0xFFF : Word).toNat ∧ 0xFFE < (0xFFFF : Word).toNat
      ∧ (0xFFE : Word).toNat + 1 ≤ 0xFFF ∧ (onCfg wrap).cfg.memOob = .wrap12
      ∧ (did (.ldByte 0 1) State.reset).fault = none ∧ (did .ret State.reset).fault ≠ none := by decide

theorem witness_FetchIsBigEndianAndBoundsChecked :
    ({ State.reset with pc := 0xFFE }).pc.toNat < 0xFFF ∧ ({ State.reset with pc := 0xFFE }).fetchFault = none
      ∧ ({ State.reset with pc := 0xFFF }).fetchFault = some 0x1000
      ∧ ({ State.reset with pc := 0x1000 }).fetchFault = some 0x1000
      ∧ ({ State.reset with pc := 0xFFFF }).fetchFault = some 0xFFFF
      ∧ ({ onCfg wrap with pc := 0xFFFF }).fetchFault = none := by decide

/-- A fault of the instruction and a fault of the fetch. -/
theorem witness_FaultingCycleChangesOnlyTheLatch :
    State.reset.fault = none
      ∧ (ran State.reset 0x00EE).fault = some ⟨.stackUnderflow, 0x200, 0x00EE, 0⟩
      ∧ (ran { State.reset with pc := 0x1000 } 0).fault = some ⟨.fetchOutOfBounds, 0x1000, 0, 0x1000⟩ := by decide

theorem witness_LatchedCoreWaitsForReset :
    (State.reset.latch ⟨.stackOverflow, 0x200, 0x2300, 0⟩).fault = some ⟨.stackOverflow, 0x200, 0x2300, 0⟩
      ∧ (List.replicate 3584 (1 : Byte)).length ≤ 3584 := by
  exact ⟨rfl, by rw [List.length_replicate]⟩

/-- Each row at the least value that faults, and the value before it, which does not. -/
theorem witness_InstructionsRaiseExactlyTheListedFaults :
    listedFault (.call 0) { State.reset with sp := 16 } = some (.stackOverflow, 0)
      ∧ listedFault (.call 0) { State.reset with sp := 15 } = none
      ∧ listedFault .ret State.reset = some (.stackUnderflow, 0) ∧ listedFault .ret { State.reset with sp := 1 } = none
      ∧ listedFault (.drw 0 0 5) { State.reset with i := 0xFFC } = some (.dataOutOfBounds, 0x1000)
      ∧ listedFault (.drw 0 0 5) { State.reset with i := 0xFFB } = none
      ∧ listedFault (.drw 0 0 0) { State.reset with i := 0xFFFF } = none
      ∧ listedFault (.ldB 0) { State.reset with i := 0xFFE } = some (.dataOutOfBounds, 0x1000)
      ∧ listedFault (.ldB 0) { State.reset with i := 0xFFD } = none
      ∧ listedFault (.stRegs 15) { State.reset with i := 0xFF1 } = some (.dataOutOfBounds, 0x1000)
      ∧ listedFault (.stRegs 15) { State.reset with i := 0xFF0 } = none
      ∧ listedFault (.ldRegs 0) { State.reset with i := 0xFFFF } = some (.dataOutOfBounds, 0xFFFF)
      ∧ listedFault (.ldRegs 0) { State.reset with i := 0xFFF } = none
      ∧ listedFault (.skp 0) (regs [(0, 16)]) = some (.keyIndexOutOfRange, 16)
      ∧ listedFault (.sknp 0) (regs [(0, 15)]) = none
      ∧ listedFault (.sknp 0) (withRegs (onCfg lowNibble) [(0, 16)]) = none := by decide

/-- A record of the fetch, one of the instruction, and none. -/
theorem witness_CycleLatchesExactlyTheListedRecord :
    State.reset.fault = none ∧ State.reset.listedRecord = none
      ∧ ({ State.reset with pc := 0xFFF }).listedRecord = some ⟨.fetchOutOfBounds, 0xFFF, 0, 0x1000⟩
      ∧ (State.reset.placeWord 0x00EE).listedRecord = some ⟨.stackUnderflow, 0x200, 0x00EE, 0⟩ := by decide

theorem witness_TimersFallInEveryCompletedCycle :
    (ran State.reset 0xFF15).fault = none ∧ decodeWord Config.default 0xFF15 = .ldDtVx 15
      ∧ (ran State.reset 0xFF18).fault = none ∧ decodeWord Config.default 0xFF18 = .ldStVx 15
      ∧ (ran State.reset 0x6A3C).fault = none
      ∧ (ran { State.reset with dt := 255, st := 1 } 0x00EE).fault ≠ none := by decide

theorem witness_OnlyRndDependsOnTheDraw :
    (State.reset.placeWord 0xCFFF).fault = none ∧ (State.reset.placeWord 0xCFFF).fetchFault = none
      ∧ decodeWord Config.default (State.reset.placeWord 0xCFFF).fetchWord = .rnd 15 0xFF
      ∧ decodeWord Config.default (State.reset.placeWord 0x6A3C).fetchWord = .ldByte 10 0x3C := by decide

/-- The hypotheses of a rolled back cycle, for every instruction that can raise a fault. -/
theorem witness_CycleFaults :
    let can (s : State) (w : Word) (i : Instr) : Bool :=
      let t := s.placeWord w
      t.fault.isNone && t.fetchFault.isNone && decodeWord t.cfg t.fetchWord == i
    can State.reset 0x00EE .ret ∧ can { State.reset with sp := 16 } 0x2300 (.call 0x300)
      ∧ can { State.reset with i := 0xFFE } 0xF033 (.ldB 0) ∧ can { State.reset with i := 0xFF1 } 0xFF55 (.stRegs 15)
      ∧ can { State.reset with i := 0x1000 } 0xF065 (.ldRegs 0)
      ∧ can { State.reset with i := 0xFFC } 0xD015 (.drw 0 1 5) ∧ can (regs [(0, 16)]) 0xE09E (.skp 0)
      ∧ can (regs [(0, 255)]) 0xE0A1 (.sknp 0) := by decide

/-- The hypotheses of the timer transfers' cycles. -/
theorem witness_TimerTransfers :
    let can (w : Word) (i : Instr) : Bool :=
      let t := State.reset.placeWord w
      t.fault.isNone && t.fetchFault.isNone && decodeWord t.cfg t.fetchWord == i
    can 0xFF07 (.ldVxDt 15) ∧ can 0xF015 (.ldDtVx 0) ∧ can 0xF018 (.ldStVx 0) := by decide

theorem witness_noop_words :
    isUnrecognised Config.default 0x8008 = true ∧ isUnrecognised strict 0x5FFF = true
      ∧ fieldOp 0x00E1 = 0 ∧ isClsOrRet Config.default (fieldNNN 0x00E1) = false
      ∧ isClsOrRet Config.default (fieldNNN 0x01E0) = false ∧ isClsOrRet lowByte (fieldNNN 0x0FFF) = false := by decide

theorem witness_NoOpCycleOnlyAdvances :
    let s := State.reset.placeWord 0x0123
    let s' := ({ State.reset with pc := 0xFFE }).placeWord 0xFFFF
    s.fault = none ∧ s.fetchFault = none ∧ decodeWord s.cfg s.fetchWord = .sys (fieldNNN s.fetchWord)
      ∧ s'.fault = none ∧ s'.fetchFault = none ∧ decodeWord s'.cfg s'.fetchWord = .nop s'.fetchWord := by decide

theorem witness_PlacedWordIsFetched :
    ({ State.reset with pc := 0xFFE }).fetchFault = none ∧ ({ onCfg wrap with pc := 0xFFF }).fetchFault = none
      ∧ (({ onCfg wrap with pc := 0xFFF }).withFetchWord 16 65535).fetchWord = 0xFFFF := by decide

theorem witness_RetPopsTheMaskedReturnAddress :
    State.reset.sp = 0 ∧ ({ State.reset with sp := 1 }).sp.val = (0 : Fin 16).val + 1
      ∧ ({ State.reset with sp := 16 }).sp.val = (15 : Fin 16).val + 1 := by decide

theorem witness_CallPushesTheNextAddressAndJumps :
    ({ State.reset with sp := 16 }).sp = 16 ∧ State.reset.sp.val = (0 : Fin 16).val
      ∧ ({ State.reset with sp := 15 }).sp.val = (15 : Fin 16).val := by decide

/-- One word of each of the groups that the decoding clauses name. -/
theorem witness_decoding_clauses :
    ([0x1FFF, 0x2000, 0x3F00, 0x4FFF, 0x6000, 0x7FFF, 0xA000, 0xBFFF, 0xC000, 0xDFFF].map fun w =>
        (fieldOp w).val) = [1, 2, 3, 4, 6, 7, 0xA, 0xB, 0xC, 0xD] := by decide

/-- A skip taken at the highest pc, and one not taken. -/
theorem witness_skips :
    (regs [(3, 0x12)]).reg 3 = 0x12 ∧ (regs [(3, 0x12)]).reg 3 ≠ 0x13 ∧ State.reset.reg 0 = State.reset.reg 15
      ∧ (regs [(0, 1)]).reg 0 ≠ (regs [(0, 1)]).reg 15
      ∧ (did (.seReg 0 1) { State.reset with pc := 0xFFFE }).pc = 0 := by decide

/-- Sums and differences on both sides of a carry and of a borrow, and both operand orders. -/
theorem witness_flags :
    ¬ 255 < (0x7F : Byte).toNat + (0x80 : Byte).toNat ∧ 255 < (0x80 : Byte).toNat + (0x80 : Byte).toNat
      ∧ (0 : Reg) ≠ regF ∧ (15 : Reg) = regF ∧ ¬ (5 : Byte).toNat < (5 : Byte).toNat
      ∧ (5 : Byte).toNat ≤ (5 : Byte).toNat ∧ ¬ (6 : Byte).toNat ≤ (5 : Byte).toNat
      ∧ (1 : Byte).toNat = (0xFF : Byte).toNat % 2 ∧ (1 : Byte).toNat = (0x80 : Byte).toNat / 128
      ∧ (0 : Byte).toNat = (0x7F : Byte).toNat / 128 ∧ State.reset.cfg.aluOrder = .snapshot
      ∧ (onCfg sequential).cfg.aluOrder = .sequential := by decide

/-- The last I that is in bounds, the first that is not, and `Wrap12`, for each count of bytes. -/
theorem witness_data_bounds :
    ({ State.reset with i := 0xFFD }).DataInBounds 3 ∧ ({ onCfg wrap with i := 0xFFFF }).DataInBounds 3
      ∧ 0xFFF < ({ State.reset with i := 0xFFE }).i.toNat + 2
      ∧ ({ State.reset with i := 0xFFF }).DataInBounds ((0 : Reg).val + 1)
      ∧ ({ State.reset with i := 0xFF0 }).DataInBounds ((15 : Reg).val + 1)
      ∧ 0xFFF < ({ State.reset with i := 0x1000 }).i.toNat + (0 : Reg).val
      ∧ 0xFFF < ({ State.reset with i := 0xFF1 }).i.toNat + (15 : Reg).val
      ∧ ({ State.reset with i := 0xFFB }).DataInBounds (5 : Fin 16).val
      ∧ ({ State.reset with i := 0xFFFF }).DataInBounds (0 : Fin 16).val
      ∧ 0xFFF < ({ State.reset with i := 0xFFC }).i.toNat + (5 : Fin 16).val - 1 := by
  unfold State.DataInBounds; decide

/-- A sprite that covers a set pixel, one that covers only clear pixels, and a pixel no sprite covers. -/
theorem witness_DrawFlipsExactlyTheCoveredPixels :
    let s := withBytes { State.reset with i := 0x300, video := Video.blank.put 0 0 1 } 0x300 [0x81]
    (s.SpriteCovers 0 1 1 0 0 ∧ s.video.at 0 0 = 1) ∧ (s.SpriteCovers 0 1 1 7 0 ∧ s.video.at 7 0 = 0)
      ∧ ¬ s.SpriteCovers 0 1 1 1 0 ∧ ¬ s.SpriteCovers 0 1 0 0 0 := by
  refine ⟨⟨⟨0, by decide, 0, by decide, by decide⟩, by decide⟩, ⟨⟨0, by decide, 7, by decide, by decide⟩, by decide⟩, ?_, ?_⟩
  · rintro ⟨row, hr, col, hc, h1, -, h3⟩
    have : row = 0 := by omega
    subst this
    have : col = 1 := by
      change 1 = (0 + col) % 64 at h1
      omega
    subst this
    exact absurd h3 (by decide)
  · rintro ⟨row, hr, -⟩
    exact absurd hr (Nat.not_lt_zero row)

/-- Drawn twice over a clear pixel and over a set one. -/
theorem witness_drawing_twice :
    let s := withBytes { State.reset with i := 0x300 } 0x300 [0x80]
    let s' := { s with video := Video.blank.put 0 0 1 }
    (0 : Reg) ≠ regF ∧ (1 : Reg) ≠ regF ∧ s.DataInBounds (1 : Fin 16).val ∧ s'.DataInBounds (1 : Fin 16).val
      ∧ (did (.drw 0 1 1) (did (.drw 0 1 1) s)).reg regF = 1
      ∧ (did (.drw 0 1 1) (did (.drw 0 1 1) s')).reg regF = 0 := by
  unfold State.DataInBounds; decide

/-- The key number 15, in range; 16 and 255, out of range, under each policy. -/
theorem witness_KeySkipsTestTheKeypad :
    ((regs [(0, 15)]).reg 0).toNat = (15 : Fin 16).val ∧ ((regs [(0, 15)]).setKey 15 true).pressed 15 = true
      ∧ 0xF < ((withRegs (onCfg notPressed) [(0, 16)]).reg 0).toNat ∧ (onCfg notPressed).cfg.keyOob = .notPressed
      ∧ 0xF < ((withRegs (onCfg lowNibble) [(0, 255)]).reg 0).toNat ∧ (onCfg lowNibble).cfg.keyOob = .lowNibble
      ∧ ((withRegs (onCfg lowNibble) [(0, 255)]).reg 0).toNat % 16 = (15 : Fin 16).val
      ∧ 0xF < ((regs [(0, 16)]).reg 0).toNat ∧ State.reset.cfg.keyOob = .fault := by decide

/-- The lowest and the highest key pressed alone, and none. -/
theorem witness_KeyWaitTakesTheLowestKey :
    (State.reset.setKey 0 true).pressed 0 = true ∧ (∀ j : Fin 16, j < 0 → (State.reset.setKey 0 true).pressed j = false)
      ∧ (State.reset.setKey 15 true).pressed 15 = true
      ∧ (∀ j : Fin 16, j < 15 → (State.reset.setKey 15 true).pressed j = false)
      ∧ ∀ k, State.reset.pressed k = false := by decide

theorem witness_KeyWaitCycleStaysInPlace :
    let s := ({ State.reset with pc := 0xFFE }).placeWord 0xFF0A
    s.fault = none ∧ s.fetchFault = none ∧ decodeWord s.cfg s.fetchWord = .ldVxK 15 ∧ ∀ k, s.pressed k = false := by
  decide

/-- A register that an instruction writes and does not read, one it neither reads nor writes, and one it does
not write. -/
theorem witness_RegisterAccessIsThatOfTheTable :
    exec (.ldReg 3 4) State.reset = .next (did (.ldReg 3 4) State.reset) ∧ (3 : Reg) ∉ readsOf (.ldReg 3 4)
      ∧ (5 : Reg) ∉ readsOf (.ldReg 3 4) ∧ (4 : Reg) ∉ writesOf (.ldReg 3 4) ∧ (15 : Reg) ∉ readsOf (.stRegs 14) :=
  ⟨rfl, by decide⟩

/-- Every part that some instruction writes is written by one of those named. -/
theorem witness_EachPartIsWrittenOnlyByItsInstructions :
    (did (.ldI 1) State.reset).i ≠ State.reset.i ∧ (did (.call 0) State.reset).sp ≠ State.reset.sp
      ∧ (did (.ldDtVx 0) (regs [(0, 1)])).dt ≠ (regs [(0, 1)]).dt
      ∧ (did (.ldStVx 0) (regs [(0, 1)])).st ≠ (regs [(0, 1)]).st
      ∧ (did (.drw 0 0 1) { State.reset with i := 0x050 }).video.at 0 0 ≠ State.reset.video.at 0 0
      ∧ (did (.stRegs 0) (regs [(0, 1)])).mem ≠ (regs [(0, 1)]).mem ∧ (did (.jp 0) State.reset).pc ≠ State.reset.pc
      ∧ (did .ret State.reset).fault ≠ State.reset.fault := by decide

theorem witness_CanonicalMemoriesThatReadAlikeAreEqual :
    Memory.wf [] = true ∧ Memory.wf [(0, 1), (0x050, 0), (0xFFF, 0xFF)] = true ∧ Memory.wf [(0x1000, 1)] = false
      ∧ Memory.wf [(0x050, 0xF0)] = false ∧ Memory.wf [(2, 1), (1, 1)] = false := by decide

/-- Two states with the invariant: one that runs, one with a latched fault. -/
theorem witness_StepKeepsTheInvariant :
    ({ State.reset with mem := [(0x200, 0x6A)] }).Inv
      ∧ (State.reset.latch ⟨.stackUnderflow, 0x200, 0x00EE, 0⟩).Inv := by
  refine ⟨⟨by decide, fun r h => nomatch h⟩, by decide, fun r h => ?_⟩
  cases h
  exact ⟨rfl, .inr (by decide)⟩

theorem witness_ConstructionIsReset : State.reset.cfg = Config.default := rfl

theorem witness_LoadProgramCopiesOrRejects :
    (List.replicate 3584 (1 : Byte)).length ≤ 4096 - 0x200 ∧ 4096 - 0x200 < (List.replicate 3585 (1 : Byte)).length := by
  rw [List.length_replicate, List.length_replicate]; decide

/-- The lowest and the highest halt loop. -/
theorem witness_HaltLoopStays :
    (∃ s : State, s.running = true ∧ s.atHaltLoop 0) ∧ ∃ s : State, s.running = true ∧ s.atHaltLoop 0xFFE :=
  ⟨⟨({ State.reset with pc := 0 }).placeWord 0x1000, by decide, by unfold State.atHaltLoop; decide⟩,
    ({ State.reset with pc := 0xFFE }).placeWord 0x1FFE, by decide, by unfold State.atHaltLoop; decide⟩

end Sys2Proof.Tests
end

section
/-! The meanings in closed form: an instruction either latches the fault R251 lists for it or has its
effect, a function of the state; so what holds of every instruction is shown of `effect`, row by row. -/

namespace Sys2Proof.Machine

variable (s : State)

/-! ### The effect of an instruction that raises nothing -/

/-- The state after the push of a call that has room (R134). -/
def State.pushed : State := { s with stack := s.stack.setIfInBounds s.sp.val s.pc, sp := s.sp + 1 }

/-- The entry that a return from a call takes (R132). -/
def State.topEntry : Word := s.entry ⟨(s.sp.val - 1) % 16, Nat.mod_lt _ (by decide)⟩

/-- The state after the pop of an entry in use (R132). -/
def State.popped : State := { s with sp := s.sp - 1 }

/-- The key test where it raises nothing (R230). -/
def State.keyDown (v : Byte) : Bool := (s.keyTest v).getD false

/-- What a flag-writing instruction leaves in `V[x]`, under the configured order (R166). -/
def aluResult (flag result : Byte → Byte → Byte) (x y : Reg) (s : State) : Byte :=
  match s.cfg.aluOrder with
  | .snapshot => result (s.reg x) (s.reg y)
  | .sequential =>
    let s1 := s.setReg regF (flag (s.reg x) (s.reg y))
    result (s1.reg x) (s1.reg y)

/-- What an instruction does where no fault is listed for it; `exec_eq` ties it to the model. The shifts
are written with `x` for the operand they ignore (R169, R171). -/
def effect (i : Instr) (s : State) : State :=
  match i with
  | .sys _ => s
  | .nop _ => s
  | .cls => { s with video := Video.blank }
  | .ret => s.popped.jumpTo s.topEntry
  | .jp nnn => s.jumpTo (addressOf nnn)
  | .call nnn => s.pushed.jumpTo (addressOf nnn)
  | .seByte x kk => s.skipIf (s.reg x == kk)
  | .sneByte x kk => s.skipIf (s.reg x != kk)
  | .seReg x y => s.skipIf (s.reg x == s.reg y)
  | .sneReg x y => s.skipIf (s.reg x != s.reg y)
  | .ldByte x kk => s.setReg x kk
  | .addByte x kk => s.setReg x (s.reg x + kk)
  | .ldReg x y => s.setReg x (s.reg y)
  | .or x y => s.setReg x (s.reg x ||| s.reg y)
  | .and x y => s.setReg x (s.reg x &&& s.reg y)
  | .xor x y => s.setReg x (s.reg x ^^^ s.reg y)
  | .addReg x y => s.setFlagThenReg x (carryFlag (s.reg x) (s.reg y)) (s.reg x + s.reg y)
  | .sub x y =>
    s.setFlagThenReg x (subFlag (s.reg x) (s.reg y)) (aluResult subFlag (fun a b => a - b) x y s)
  | .shr x _ =>
    s.setFlagThenReg x (shrFlag (s.reg x)) (aluResult (fun a _ => shrFlag a) (fun a _ => a >>> 1) x x s)
  | .subn x y =>
    s.setFlagThenReg x (subnFlag (s.reg x) (s.reg y)) (aluResult subnFlag (fun a b => b - a) x y s)
  | .shl x _ =>
    s.setFlagThenReg x (shlFlag (s.reg x)) (aluResult (fun a _ => shlFlag a) (fun a _ => a <<< 1) x x s)
  | .ldI nnn => { s with i := addressOf nnn }
  | .jpV0 nnn => s.jumpTo (zext16 (s.reg 0) + addressOf nnn)
  | .rnd x kk => s.setReg x (s.draw &&& kk)
  | .drw x y n => s.drawSprite x y n.val
  | .skp x => s.skipIf (s.keyDown (s.reg x) == true)
  | .sknp x => s.skipIf (s.keyDown (s.reg x) == false)
  | .ldVxDt x => s.setReg x s.dt
  | .ldVxK x =>
    match s.firstKey with
    | some k => s.setReg x (BitVec.ofNat 8 k.val)
    | none => { s with pc := s.pc - 2 }
  | .ldDtVx x => { s with dt := s.reg x }
  | .ldStVx x => { s with st := s.reg x }
  | .addI x => { s with i := s.i + zext16 (s.reg x) }
  | .ldF x => { s with i := glyphAddress (s.reg x) }
  | .ldB x => s.storeData (decimalDigits (s.reg x))
  | .stRegs x => s.storeData (s.regsUpTo x)
  | .ldRegs x => { s with v := s.regsLoaded x }

/-! ### The listed faults -/

/-- `s` with the fault latched, if there is one, else the state `t`. -/
def State.latchOr (s : State) (fault : Option (FaultCause × Word)) (t : State) : State :=
  match fault with
  | some (cause, addr) => s.latch (s.record cause addr)
  | none => t

@[simp] theorem latchOr_none (t : State) : s.latchOr none t = t := rfl

@[simp] theorem latchOr_some (cause : FaultCause) (addr : Word) (t : State) :
    s.latchOr (some (cause, addr)) t = s.latch (s.record cause addr) := rfl

theorem listedDataFault_of_inBounds (count : Nat) (h : s.DataInBounds count) : s.listedDataFault count = none := by
  refine if_neg fun ⟨hp, hc, ha⟩ => ?_
  rcases h with h | h | h
  · rw [h] at hp; cases hp
  · exact absurd h (by simp only [memorySize]; omega)
  · omega

theorem listedDataFault_of_not (count : Nat) (h : ¬ s.DataInBounds count) :
    s.listedDataFault count = some (.dataOutOfBounds, BitVec.ofNat 16 (max s.i.toNat memorySize)) := by
  simp only [State.DataInBounds, memorySize, not_or] at h
  obtain ⟨hp, hc, ha⟩ := h
  have hp : s.cfg.memOob = .fault := by
    cases hk : s.cfg.memOob with
    | fault => rfl
    | wrap12 => exact absurd hk hp
  have haddr : (if s.i.toNat ≤ 0xFFF then (0x1000 : Word) else s.i) =
      BitVec.ofNat 16 (max s.i.toNat memorySize) := by
    split
    · rw [max_eq_right (by simp only [memorySize]; omega)]; rfl
    · rw [max_eq_left (by simp only [memorySize]; omega), BitVec.ofNat_toNat, BitVec.setWidth_eq]
  rw [State.listedDataFault, if_pos ⟨hp, by omega, by omega⟩, haddr]

theorem listedDataFault_eq_none (count : Nat) : s.listedDataFault count = none ↔ s.DataInBounds count := by
  refine ⟨fun h => ?_, listedDataFault_of_inBounds s count⟩
  by_contra hn
  rw [listedDataFault_of_not s count hn] at h
  cases h

/-- A fault is listed only for the rows R251 names. -/
theorem rowNumber_of_listedFault {i : Instr} {f : FaultCause × Word} (h : listedFault i s = some f) :
    i.rowNumber ∈ [3, 5, 24, 25, 26, 33, 34, 35] := by
  cases i with
  | ret | call | drw | skp | sknp | ldB | stRegs | ldRegs => simp [Instr.rowNumber]
  | _ => cases h

/-- The listed fault rests on the configuration, I, sp and the registers alone. -/
theorem listedFault_congr (i : Instr) {s t : State} (hc : t.cfg = s.cfg) (hi : t.i = s.i) (hsp : t.sp = s.sp)
    (hv : t.v = s.v) : listedFault i t = listedFault i s := by
  have hr := s.reg_congr t hv
  cases i with
  | ret | call => simp only [listedFault, hsp]
  | drw | ldB | stRegs | ldRegs => simp only [listedFault, State.listedDataFault, hc, hi]
  | skp | sknp => simp only [listedFault, State.listedKeyFault, hc, hr]
  | _ => rfl

/-! ### The shared operations in closed form -/

theorem withData_eq (count : Nat) (t : State) :
    withData count t s = .next (s.latchOr (s.listedDataFault count) t) := by
  by_cases h : s.DataInBounds count
  · rw [withData_of_inBounds s count t h, listedDataFault_of_inBounds s count h, latchOr_none]
  · rw [withData_of_not s count t h, listedDataFault_of_not s count h, latchOr_some]

theorem push_eq (after : State → State) :
    push after s = .next (s.latchOr (if s.sp = 16 then some (.stackOverflow, 0) else none) (after s.pushed)) := by
  by_cases h : s.sp = 16
  · rw [push_of_full s after h, if_pos h, latchOr_some]
  · have hlt : s.sp.val < 16 := by omega
    have hsp : s.sp + 1 = ⟨s.sp.val + 1, by omega⟩ :=
      Fin.ext ((Fin.val_add s.sp 1).trans (Nat.mod_eq_of_lt (by omega)))
    have hstack : s.stack.setIfInBounds s.sp.val s.pc = s.stack.set s.sp.val s.pc :=
      Vector.ext fun j hj => by rw [Vector.getElem_setIfInBounds hj, Vector.getElem_set]
    rw [push_of_room s after hlt, if_neg h, latchOr_none, State.pushed, hsp, hstack]

theorem pop_eq (after : Word → State → State) :
    pop after s =
      .next (s.latchOr (if s.sp = 0 then some (.stackUnderflow, 0) else none) (after s.topEntry s.popped)) := by
  by_cases h : s.sp = 0
  · rw [pop_of_empty s after h, if_pos h, latchOr_some]
  · have hpos : 0 < s.sp.val := by omega
    have hsp : s.sp - 1 = ⟨s.sp.val - 1, by omega⟩ := Fin.ext (Fin.val_sub_one_of_ne_zero h)
    have hmod : (s.sp.val - 1) % 16 = s.sp.val - 1 := Nat.mod_eq_of_lt (by omega)
    rw [pop_of_entry s after hpos, if_neg h, latchOr_none, State.popped, hsp, State.topEntry]
    simp only [hmod]

theorem skipOnKey_eq (wanted : Bool) (x : Reg) :
    skipOnKey wanted x s =
      .next (s.latchOr (s.listedKeyFault x) (s.skipIf (s.keyDown (s.reg x) == wanted))) := by
  have hiff := keyTest_eq_none s (s.reg x)
  cases hk : s.keyTest (s.reg x) with
  | none =>
    have : s.cfg.keyOob = .fault ∧ 0xF < (s.reg x).toNat := hiff.1 hk
    rw [State.listedKeyFault, if_pos this, latchOr_some]
    simp [skipOnKey, hk]
  | some down =>
    have : ¬ (s.cfg.keyOob = .fault ∧ 0xF < (s.reg x).toNat) := fun h => by simp [hiff.2 h] at hk
    rw [State.listedKeyFault, if_neg this, latchOr_none]
    simp [skipOnKey, State.keyDown, hk]

theorem aluWithFlag_eq (flag result : Byte → Byte → Byte) (x y : Reg) :
    aluWithFlag flag result x y s =
      s.setFlagThenReg x (flag (s.reg x) (s.reg y)) (aluResult flag result x y s) := by
  cases h : s.cfg.aluOrder <;> simp [aluWithFlag, aluResult, h, State.setFlagThenReg]

/-- Every instruction latches the fault listed for it, or else has its effect (R104, R251, R252). -/
theorem exec_eq (i : Instr) : exec i s = .next (s.latchOr (listedFault i s) (effect i s)) := by
  cases i with
  | ret => exact pop_eq s fun a t => t.jumpTo a
  | call nnn => exact push_eq s fun t => t.jumpTo (addressOf nnn)
  | drw => exact withData_eq s _ _
  | skp | sknp => exact skipOnKey_eq s _ _
  | ldB | stRegs | ldRegs => exact withData_eq s _ _
  | sub x y => exact congrArg Host.Outcome.next (aluWithFlag_eq s _ _ x y)
  | subn x y => exact congrArg Host.Outcome.next (aluWithFlag_eq s _ _ x y)
  | shr x => exact congrArg Host.Outcome.next (aluWithFlag_eq s (fun a _ => shrFlag a) (fun a _ => a >>> 1) x x)
  | shl x => exact congrArg Host.Outcome.next (aluWithFlag_eq s (fun a _ => shlFlag a) (fun a _ => a <<< 1) x x)
  | ldVxK => cases h : s.firstKey <;> simp [exec, execLdVxK, effect, listedFault, h]
  | _ => rfl

/-- What an instruction can leave: the state with its listed fault latched, or its effect. -/
theorem exec_cases {i : Instr} {s t : State} (h : exec i s = .next t) :
    (∃ cause addr, listedFault i s = some (cause, addr) ∧ t = s.latch (s.record cause addr))
      ∨ (listedFault i s = none ∧ t = effect i s) := by
  rw [exec_eq, Host.Outcome.next.injEq] at h
  cases hf : listedFault i s with
  | none => exact .inr ⟨rfl, by rw [← h, hf, latchOr_none]⟩
  | some f => exact .inl ⟨f.1, f.2, rfl, by rw [← h, hf, latchOr_some]⟩

end Sys2Proof.Machine
end

section
/-! What the effects write (R22 to R32): the parts of the state, by the row of the instruction, and the
general registers, by R22's table. -/

namespace Sys2Proof.Machine

variable (s : State)

/-! ### The parts of the state -/

/-- `t` is `s` after the effect of an instruction of opcode row `n`: the parts that can be written at
once, and the rows that write them (R22 to R32, R60). -/
inductive Change (n : Nat) (s : State) : State → Prop where
  | registers (v : Vector Byte 16) : Change n s { s with v := v }
  | index (h : n ∈ [21, 31, 32]) (i : Word) : Change n s { s with i := i }
  | counter (h : n ∈ [3, 4, 5, 6, 7, 8, 20, 22, 25, 26, 28]) (pc : Word) : Change n s { s with pc := pc }
  | callStack (h : n ∈ [3, 5]) (sp : Fin 17) (stack : Vector Word 16) (pc : Word) :
      Change n s { s with sp := sp, stack := stack, pc := pc }
  | delayTimer (h : n = 29) (dt : Byte) : Change n s { s with dt := dt }
  | soundTimer (h : n = 30) (st : Byte) : Change n s { s with st := st }
  | screen (h : n ∈ [2, 24]) (video : Video) (v : Vector Byte 16) : Change n s { s with video := video, v := v }
  | memory (h : n ∈ [33, 34]) (mem : Memory) : Change n s { s with mem := mem }

/-- A skip writes the pc alone. -/
theorem Change.skipIf {n : Nat} (h : n ∈ [3, 4, 5, 6, 7, 8, 20, 22, 25, 26, 28]) (taken : Bool) :
    Change n s (s.skipIf taken) := by
  cases taken with
  | false => exact .counter h s.pc
  | true => exact .counter h (s.pc + 2)

theorem effect_change (i : Instr) : Change i.rowNumber s (effect i s) := by
  cases i with
  | sys | nop => exact .registers s.v
  | cls => exact .screen (by simp [Instr.rowNumber]) _ s.v
  | drw => exact .screen (by simp [Instr.rowNumber]) _ _
  | ret => exact .callStack (by simp [Instr.rowNumber]) _ s.stack _
  | call => exact .callStack (by simp [Instr.rowNumber]) _ _ _
  | jp | jpV0 => exact .counter (by simp [Instr.rowNumber]) _
  | seByte | sneByte | seReg | sneReg | skp | sknp => exact .skipIf s (by simp [Instr.rowNumber]) _
  | ldI | addI | ldF => exact .index (by simp [Instr.rowNumber]) _
  | ldDtVx => exact .delayTimer rfl _
  | ldStVx => exact .soundTimer rfl _
  | ldB | stRegs => exact .memory (by simp [Instr.rowNumber]) _
  | ldVxK =>
    simp only [effect]
    split
    · exact .registers _
    · exact .counter (by simp [Instr.rowNumber]) _
  | _ => exact .registers _

theorem Change.fault_eq {s t : State} {n : Nat} (h : Change n s t) : t.fault = s.fault := by
  cases h <;> rfl

theorem Change.mem_eq {s t : State} {n : Nat} (h : Change n s t) (hn : n ∉ [33, 34]) : t.mem = s.mem := by
  cases h with
  | memory h => exact absurd h hn
  | _ => rfl

/-- Settles O45: each row makes a change of its own kind, and a fault changes the latch alone. -/
theorem eachPartIsWrittenOnlyByItsInstructions : Obligations.EachPartIsWrittenOnlyByItsInstructions := by
  intro i s t h
  obtain ⟨cause, addr, hf, rfl⟩ | ⟨-, rfl⟩ := exec_cases h
  · simp [rowNumber_of_listedFault s hf]
  · have hc := effect_change s i
    generalize effect i s = t, i.rowNumber = n at hc ⊢
    cases hc with
    | registers => simp
    | index hn => simp [hn]
    | counter hn => simp [hn]
    | callStack hn =>
      have hpc : n ∈ [3, 4, 5, 6, 7, 8, 20, 22, 25, 26, 28] := (by decide : [3, 5] ⊆ _) hn
      simp [hn, hpc]
    | delayTimer hn => simp [hn]
    | soundTimer hn => simp [hn]
    | screen hn => simp [hn]
    | memory hn => simp [hn]

/-! ### The general registers (R22) -/

theorem reg_setFlagThenReg_of_ne (x r : Reg) (flag b : Byte) (hf : r ≠ regF) (hx : r ≠ x) :
    (s.setFlagThenReg x flag b).reg r = s.reg r := by
  rw [State.setFlagThenReg, State.reg_setReg_of_ne _ _ _ _ hx, State.reg_setReg_of_ne _ _ _ _ hf]

/-- An effect changes no register outside the "Writes" column. -/
theorem effect_reg (i : Instr) (r : Reg) (h : r ∉ writesOf i) : (effect i s).reg r = s.reg r := by
  cases i with
  | ldByte | addByte | ldReg | or | and | xor | rnd | ldVxDt =>
    exact s.reg_setReg_of_ne _ _ _ (List.ne_of_not_mem_cons h)
  | addReg | sub | shr | subn | shl =>
    simp only [writesOf, List.mem_cons, List.not_mem_nil, or_false, not_or] at h
    exact reg_setFlagThenReg_of_ne s _ _ _ _ h.1 h.2
  | drw => exact State.reg_setReg_of_ne _ _ _ _ (List.ne_of_not_mem_cons h)
  | ldVxK =>
    simp only [effect]
    split
    · exact s.reg_setReg_of_ne _ _ _ (List.ne_of_not_mem_cons h)
    · rfl
  | ldRegs x =>
    have hx : ¬ r ≤ x := by simpa [writesOf] using h
    exact (s.reg_regsLoaded x r).trans (if_neg hx)
  | seByte | sneByte | seReg | sneReg | skp | sknp => exact s.reg_congr _ (s.skipIf_v _) r
  | _ => rfl

/-! ### Registers that are not read (R22) -/

/-- `t'` is `t`, but for `V[q]` at most: untouched since `s` in `t`, it holds `b` in `t'`. -/
def Unread (q : Reg) (b : Byte) (s t t' : State) : Prop :=
  t' = t ∨ (t' = t.setReg q b ∧ t.reg q = s.reg q)

theorem setReg_setReg_self (q : Reg) (b c : Byte) : (s.setReg q b).setReg q c = s.setReg q c := by
  simp [State.setReg]

theorem setReg_setReg_comm {x q : Reg} (h : x ≠ q) (b c : Byte) :
    (s.setReg q b).setReg x c = (s.setReg x c).setReg q b := by
  have hv : q.val ≠ x.val := fun e => h (Fin.ext e.symm)
  simp [State.setReg, Vector.set_comm _ _ hv]

section

variable {s} {q : Reg} {b : Byte} {t t' : State}

/-- A register write overwrites the difference, or leaves it as it was. -/
theorem Unread.setReg (h : Unread q b s t t') (x : Reg) (c : Byte) : Unread q b s (t.setReg x c) (t'.setReg x c) := by
  rcases h with rfl | ⟨rfl, hq⟩
  · exact .inl rfl
  · by_cases hx : x = q
    · subst hx
      exact .inl (setReg_setReg_self t x b c)
    · exact .inr ⟨setReg_setReg_comm t hx b c, (t.reg_setReg_of_ne x q c (Ne.symm hx)).trans hq⟩

theorem Unread.refl : Unread q b s s (s.setReg q b) := .inr ⟨rfl, rfl⟩

theorem Unread.withVideo (d : Video) : Unread q b s { s with video := d } { s.setReg q b with video := d } :=
  .inr ⟨rfl, rfl⟩

theorem Unread.setFlagThenReg (x : Reg) (flag c : Byte) :
    Unread q b s (s.setFlagThenReg x flag c) ((s.setReg q b).setFlagThenReg x flag c) :=
  (Unread.refl.setReg regF flag).setReg x c

end

theorem skipIf_setReg (q : Reg) (b : Byte) (taken : Bool) :
    (s.setReg q b).skipIf taken = (s.skipIf taken).setReg q b := by
  cases taken <;> rfl

theorem aluResult_setReg (flag result : Byte → Byte → Byte) {x y q : Reg} (hx : x ≠ q) (hy : y ≠ q)
    (b : Byte) :
    aluResult flag result x y (s.setReg q b) = aluResult flag result x y s := by
  simp only [aluResult, State.setReg_cfg, State.reg_setReg, hx, hy, if_false]

theorem listedFault_setReg (i : Instr) {q : Reg} (b : Byte) (h : q ∉ readsOf i) :
    listedFault i (s.setReg q b) = listedFault i s := by
  cases i with
  | skp x | sknp x =>
    have hx : x ≠ q := Ne.symm (List.ne_of_not_mem_cons h)
    simp only [listedFault, State.listedKeyFault, State.setReg_cfg, s.reg_setReg_of_ne q x b hx]
  | _ => rfl

theorem regsUpTo_setReg {x q : Reg} (h : x < q) (b : Byte) : (s.setReg q b).regsUpTo x = s.regsUpTo x := by
  simp only [State.regsUpTo, State.setReg_v, Vector.toList_set]
  exact List.take_set_of_le h

theorem getElem_regsLoaded (x : Reg) (k : Nat) (hk : k < 16) :
    (s.regsLoaded x)[k] = if (⟨k, hk⟩ : Reg) ≤ x then s.dataByte k else s.reg ⟨k, hk⟩ :=
  Vector.getElem_ofFn hk

theorem regsLoaded_setReg_of_le {x q : Reg} (h : q ≤ x) (b : Byte) :
    (s.setReg q b).regsLoaded x = s.regsLoaded x := by
  refine Vector.ext fun k hk => ?_
  have hd : (s.setReg q b).dataByte k = s.dataByte k := rfl
  rw [getElem_regsLoaded, getElem_regsLoaded, hd]
  split
  · rfl
  · next hkx => exact s.reg_setReg_of_ne q _ b fun e => hkx (e ▸ h)

theorem regsLoaded_setReg_of_lt {x q : Reg} (h : x < q) (b : Byte) :
    (s.setReg q b).regsLoaded x = (s.regsLoaded x).set q.val b := by
  refine Vector.ext fun k hk => ?_
  have hd : (s.setReg q b).dataByte k = s.dataByte k := rfl
  rw [getElem_regsLoaded, hd, State.reg_setReg, Vector.getElem_set, getElem_regsLoaded]
  by_cases hkq : q.val = k
  · have hkx : ¬ (⟨k, hk⟩ : Reg) ≤ x := not_le.2 (hkq ▸ h)
    rw [if_neg hkx, if_pos (Fin.ext hkq.symm), if_pos hkq]
  · rw [if_neg (fun e : (⟨k, hk⟩ : Reg) = q => hkq (e ▸ rfl)), if_neg hkq]

/-- Changing a register that is not read changes nothing in the effect but, at most, that register. -/
theorem effect_unread (i : Instr) (q : Reg) (b : Byte) (h : q ∉ readsOf i) :
    Unread q b s (effect i s) (effect i (s.setReg q b)) := by
  have hr : ∀ x ∈ readsOf i, (s.setReg q b).reg x = s.reg x := fun x hx =>
    s.reg_setReg_of_ne q x b (ne_of_mem_of_not_mem hx h)
  cases i with
  | ldByte | rnd | ldVxDt => exact Unread.refl.setReg _ _
  | addByte | ldReg | or | and | xor =>
    simp only [readsOf, List.forall_mem_cons] at hr
    simp only [effect, hr]
    exact Unread.refl.setReg _ _
  | addReg =>
    simp only [readsOf, List.forall_mem_cons] at hr
    simp only [effect, hr]
    exact Unread.setFlagThenReg _ _ _
  | sub x y | subn x y =>
    have hx : x ≠ q ∧ y ≠ q := by simpa [readsOf, eq_comm] using h
    simp only [readsOf, List.forall_mem_cons] at hr
    simp only [effect, hr, aluResult_setReg s _ _ hx.1 hx.2]
    exact Unread.setFlagThenReg _ _ _
  | shr x | shl x =>
    have hx : x ≠ q := Ne.symm (List.ne_of_not_mem_cons h)
    simp only [readsOf, List.forall_mem_cons] at hr
    simp only [effect, hr, aluResult_setReg s _ _ hx hx]
    exact Unread.setFlagThenReg _ _ _
  | drw =>
    simp only [readsOf, List.forall_mem_cons] at hr
    simp only [effect, State.drawSprite, hr]
    exact (Unread.withVideo _).setReg _ _
  | seByte | sneByte | seReg | sneReg | skp | sknp =>
    simp only [readsOf, List.forall_mem_cons] at hr
    simp only [effect, hr]
    exact .inr ⟨skipIf_setReg s q b _, s.reg_congr _ (s.skipIf_v _) q⟩
  | ldVxK =>
    have hk : (s.setReg q b).firstKey = s.firstKey := rfl
    simp only [effect, hk]
    split
    · exact Unread.refl.setReg _ _
    · exact .inr ⟨rfl, rfl⟩
  | stRegs x =>
    have hx : x < q := by simpa [readsOf] using h
    simp only [effect, regsUpTo_setReg s hx]
    exact .inr ⟨rfl, rfl⟩
  | ldRegs x =>
    by_cases hx : q ≤ x
    · exact .inl (by simp only [effect, regsLoaded_setReg_of_le s hx]; rfl)
    · refine .inr ⟨by simp only [effect, regsLoaded_setReg_of_lt s (not_le.1 hx)]; rfl, ?_⟩
      exact (s.reg_regsLoaded x q).trans (if_neg hx)
  | jpV0 | ldDtVx | ldStVx | addI | ldF | ldB =>
    simp only [readsOf, List.forall_mem_cons] at hr
    simp only [effect, hr]
    exact .inr ⟨rfl, rfl⟩
  | _ => exact .inr ⟨rfl, rfl⟩

theorem Part.same_setReg (q : Reg) (b : Byte) (p : Part) : p.same s (s.setReg q b) :=
  (KeepsAllBut.setReg s q b).1 p (List.not_mem_nil)

/-- An instruction answers the same whether or not a register it does not read was changed beforehand, but
for that register at most. -/
theorem exec_unread {i : Instr} {s t : State} (h : exec i s = .next t) (q : Reg) (b : Byte) (hq : q ∉ readsOf i) :
    ∃ t', exec i (s.setReg q b) = .next t' ∧ Unread q b s t t' := by
  rw [exec_eq, listedFault_setReg s i b hq]
  obtain ⟨cause, addr, hf, rfl⟩ | ⟨hf, rfl⟩ := exec_cases h
  · exact ⟨_, rfl, .inr ⟨by rw [hf]; rfl, rfl⟩⟩
  · exact ⟨_, rfl, by rw [hf]; exact effect_unread s i q b hq⟩

/-- Settles O44, by `effect_reg` and `exec_unread`; a fault writes no register. -/
theorem registerAccessIsThatOfTheTable : Obligations.RegisterAccessIsThatOfTheTable := by
  intro i s t h
  refine ⟨fun r hr => ?_, fun q b hq => ?_⟩
  · obtain ⟨cause, addr, -, rfl⟩ | ⟨-, rfl⟩ := exec_cases h
    · rfl
    · exact effect_reg s i r hr
  · obtain ⟨t', ht', rfl | ⟨rfl, hkept⟩⟩ := exec_unread h q b hq
    · refine ⟨_, ht', fun p => ?_, fun _ => rfl, fun _ _ => rfl, .inl rfl⟩
      cases p <;> simp [Part.same]
    · exact ⟨_, ht', Part.same_setReg t q b, fun _ => rfl, fun r hr => t.reg_setReg_of_ne q r b hr,
        .inr ⟨hkept, t.reg_setReg_self q b⟩⟩

end Sys2Proof.Machine
end

section
/-! Runs of host operations (R50, R51) and the invariant (R251, R253). -/

namespace Sys2Proof.Machine

variable {s t : State}

/-! ### What the invariant rests on -/

/-- That a record describes a state rests on the pc and on what `listedFault_congr` names. -/
theorem FaultRecord.describes_congr (r : FaultRecord) (hpc : t.pc = s.pc) (hc : t.cfg = s.cfg) (hi : t.i = s.i)
    (hsp : t.sp = s.sp) (hv : t.v = s.v) (h : r.describes s) : r.describes t := by
  simpa only [FaultRecord.describes, hpc, hc, listedFault_congr _ hc hi hsp hv] using h

/-- A state that no fault stands in has the invariant where its memory is in canonical form. -/
theorem State.Inv.of_fault_none (hf : s.fault = none) (hm : s.mem.wf = true) : s.Inv :=
  ⟨hm, fun r hr => by rw [hf] at hr; cases hr⟩

/-- Latching a record that describes the state keeps the invariant. -/
theorem State.Inv.latch {r : FaultRecord} (hm : s.mem.wf = true) (hr : r.describes s) : (s.latch r).Inv := by
  refine ⟨hm, fun r' h => ?_⟩
  cases h
  exact r.describes_congr rfl rfl rfl rfl rfl hr

/-! ### Memory -/

theorem length_regsUpTo (s : State) (x : Reg) : (s.regsUpTo x).length = x.val + 1 := by
  simp [State.regsUpTo]

/-- An effect whose data addresses were checked keeps memory in canonical form. -/
theorem effect_wf (i : Instr) (hf : listedFault i s = none) (hm : s.mem.wf = true) :
    (effect i s).mem.wf = true := by
  cases i with
  | ldB x => exact wf_storeData s (decimalDigits (s.reg x)) ((listedDataFault_eq_none s 3).1 hf) hm
  | stRegs x =>
    refine wf_storeData s (s.regsUpTo x) ?_ hm
    rw [length_regsUpTo]
    exact (listedDataFault_eq_none s (x.val + 1)).1 hf
  | _ => rwa [(effect_change s _).mem_eq (by simp [Instr.rowNumber])]

theorem resetMemory_wf (font : Vector Byte fontSize) : (resetMemory font).wf = true :=
  Memory.wf_writeBlock _ _ _ _ (.inr (by rw [Vector.length_toList]; decide)) rfl

/-! ### One cycle -/

/-- The record of a failed fetch describes the state the cycle began in (R251, row 1). -/
theorem fetchRecord_describes {a : Nat} (h : s.fetchFault = some a) : (s.fetchRecord a).describes s := by
  obtain ⟨hp, hpc, rfl⟩ := (fetchFault_eq_some s a).1 h
  have haddr : BitVec.ofNat 16 (max s.pc.toNat memorySize) = if s.pc = 0xFFF then 0x1000 else s.pc := by
    split
    · next h => rw [h]; rfl
    · next h =>
      have : s.pc.toNat ≠ 0xFFF := fun e => h (BitVec.eq_of_toNat_eq e)
      rw [max_eq_left (by simp only [memorySize]; omega), BitVec.ofNat_toNat, BitVec.setWidth_eq]
  exact ⟨rfl, .inl ⟨hp, hpc, by rw [State.fetchRecord, haddr]⟩⟩

/-- The fetch has no part in what an instruction raises. -/
theorem listedFault_fetched (i : Instr) (r : Byte) (w : Word) : listedFault i (s.fetched r w) = listedFault i s :=
  listedFault_congr i rfl rfl rfl rfl

/-- A cycle that fetches latches the fault listed for the fetched instruction, in the state it began in
(R251, R253). -/
theorem cycle_of_listedFault (r : Byte) {cause : FaultCause} {addr : Word} (h : s.fault = none)
    (hf : s.fetchFault = none) (hl : listedFault (decodeWord s.cfg s.fetchWord) s = some (cause, addr)) :
    cycle r s = .next (s.latch ⟨cause, s.pc, s.fetchWord, addr⟩) := by
  have hpc : s.pc + 2 - 2 = s.pc := BitVec.add_sub_cancel s.pc 2
  have hx := exec_eq (s.fetched r s.fetchWord) (decodeWord s.cfg s.fetchWord)
  rw [listedFault_fetched, hl, latchOr_some] at hx
  rw [cycle_of_fetch s r h hf, runWord_of_next s r _ _ hx, settle_of_some s _ _ (State.latch_fault _ _),
    State.record, State.fetched_pc, State.fetched_opcode, hpc]

/-- A cycle that fetches an instruction with no fault listed has its effect and lets the timers fall
(R100, R260). -/
theorem cycle_of_no_listedFault (r : Byte) (h : s.fault = none) (hf : s.fetchFault = none)
    (hl : listedFault (decodeWord s.cfg s.fetchWord) s = none) :
    cycle r s = .next (effect (decodeWord s.cfg s.fetchWord) (s.fetched r s.fetchWord)).tick := by
  have hx := exec_eq (s.fetched r s.fetchWord) (decodeWord s.cfg s.fetchWord)
  rw [listedFault_fetched, hl, latchOr_none] at hx
  rw [cycle_of_fetch s r h hf, runWord_of_next s r _ _ hx,
    settle_of_none s _ ((effect_change (s.fetched r s.fetchWord) _).fault_eq.trans h)]

theorem cycle_keeps_inv (r : Byte) (h : s.Inv) : ∃ t, cycle r s = .next t ∧ t.Inv := by
  have ⟨hm, _⟩ := h
  cases hf : s.fault with
  | some f => exact ⟨s, cycle_of_faulted s r f hf, h⟩
  | none =>
    cases hff : s.fetchFault with
    | some a => exact ⟨_, cycle_of_fetchFault s r a hf hff, .latch hm (fetchRecord_describes hff)⟩
    | none =>
      cases hl : listedFault (decodeWord s.cfg s.fetchWord) s with
      | some f => exact ⟨_, cycle_of_listedFault r hf hff hl, .latch hm ⟨rfl, .inr hl⟩⟩
      | none =>
        refine ⟨_, cycle_of_no_listedFault r hf hff hl, .of_fault_none ?_ ?_⟩
        · exact (effect_change _ _).fault_eq.trans hf
        · exact effect_wf _ ((listedFault_fetched _ r _).trans hl) hm

/-! ### Host operations -/

theorem HostOp.run_keeps_inv (op : HostOp) (h : s.Inv) : ∃ t reply, op.run s = .next (t, reply) ∧ t.Inv := by
  have ⟨hm, hrec⟩ := h
  cases op with
  | reset => exact ⟨_, _, rfl, .of_fault_none rfl (resetMemory_wf s.cfg.fontset)⟩
  | setKey k b => exact ⟨_, _, rfl, hm, fun r hr => r.describes_congr rfl rfl rfl rfl rfl (hrec r hr)⟩
  | cycle r =>
    obtain ⟨t, ht, hinv⟩ := cycle_keeps_inv r h
    exact ⟨t, t.cycleReply, by rw [HostOp.run, ht], hinv⟩
  | loadProgram bytes =>
    by_cases hlen : bytes.length ≤ maxProgram
    · have hwf : (s.mem.writeBlock .fault programStart bytes).wf = true :=
        Memory.wf_writeBlock _ _ _ _ (.inr (by simp only [maxProgram, programStart, memorySize] at *; omega)) hm
      refine ⟨{ s with mem := s.mem.writeBlock .fault programStart bytes }, .ok, ?_, hwf, fun r hr => ?_⟩
      · simp [HostOp.run, State.loadProgram, hlen]
      · exact r.describes_congr rfl rfl rfl rfl rfl (hrec r hr)
    · exact ⟨s, .loadTooLarge, by simp [HostOp.run, State.loadProgram, hlen], h⟩

/-- Settles O50, by induction on the operations. -/
theorem hostRunsCompleteAndKeepTheInvariant : Obligations.HostRunsCompleteAndKeepTheInvariant := by
  intro ops
  induction ops with
  | nil => exact fun s h => ⟨s, rfl, h⟩
  | cons op rest ih =>
    intro s h
    obtain ⟨t, reply, hop, ht⟩ := op.run_keeps_inv h
    obtain ⟨u, hrest, hu⟩ := ih t ht
    exact ⟨u, by rw [hostRun, hop]; exact hrest, hu⟩

/-- Settles O48. -/
theorem resetStateHasTheInvariant : Obligations.ResetStateHasTheInvariant :=
  .of_fault_none rfl rfl

end Sys2Proof.Machine
end

section
/-! The keypad's port and the video view (R29, R50, R52, R53). -/

namespace Sys2Proof.Machine

/-- Settles O54. -/
theorem setKeyWritesOneSlot : Obligations.SetKeyWritesOneSlot := by
  intro k b s
  refine ⟨_, rfl, ?_, fun q hq => ?_, .of_parts [.keypad] s _ rfl rfl fun p hp => ?_⟩
  · rw [s.pressed_setKey, if_pos rfl]
  · rw [s.pressed_setKey, if_neg hq]
  · cases p with
    | keypad => exact absurd (List.mem_singleton.2 rfl) hp
    | _ => simp [Part.same, State.entry]

/-- The index that `List.ofFn_mul` writes out is Batteries' `mkDivMod`. -/
theorem mk_eq_mkDivMod {m n : Nat} (y : Fin m) (x : Fin n) (h : y.val * n + x.val < m * n) :
    (⟨y.val * n + x.val, h⟩ : Fin (m * n)) = Fin.mkDivMod y x :=
  Fin.ext (congrArg (· + x.val) (Nat.mul_comm y.val n))

/-- The view as a table over its flat indices: index `k` holds the pixel of column `k % 64`, row `k / 64`. -/
theorem videoView_eq_ofFn (s : State) :
    s.videoView = List.ofFn fun k : Fin (32 * 64) => (s.video.at k.modNat k.divNat).setWidth 8 := by
  rw [List.ofFn_mul, State.videoView, List.flatMap_def, List.ofFn_eq_map]
  simp only [List.ofFn_eq_map, mk_eq_mkDivMod, Fin.modNat_mkDivMod, Fin.divNat_mkDivMod]

/-- Settles O55. -/
theorem videoViewIsRowMajor : Obligations.VideoViewIsRowMajor := by
  intro s
  rw [videoView_eq_ofFn]
  refine ⟨List.length_ofFn, fun b hb => ?_, fun x y => ?_⟩
  · obtain ⟨k, rfl⟩ := List.mem_ofFn.1 hb
    generalize s.video.at k.modNat k.divNat = p
    revert p
    decide
  · have hk : y.val * 64 + x.val < 32 * 64 := by omega
    rw [List.getElem?_ofFn, dif_pos hk, mk_eq_mkDivMod, Fin.modNat_mkDivMod, Fin.divNat_mkDivMod,
      Option.map_some, BitVec.toNat_setWidth_of_le (by decide)]

end Sys2Proof.Machine
end

section
/-! Memory and the fetch: canonical memories are known by their reads (R65), a fetch is big-endian and
bounds-checked (R61, R67), and a placed word is what it fetches (R75, R101). -/

namespace Sys2Proof.Machine

/-! ### Canonical memories -/

/-- The first listed address does not read as the background, and below its own first address a canonical
memory does: so no memory that reads the same there begins above it. -/
theorem Memory.wfFrom_le_of_read_eq {c : Host.Cell} {rest m : Memory} {low low' : Nat}
    (hc : Memory.wfFrom low (c :: rest) = true) (hm : Memory.wfFrom low' m = true)
    (hr : Memory.read (c :: rest) c.1 = m.read c.1) : low' ≤ c.1 := by
  by_contra hlt
  obtain ⟨-, -, hne, -⟩ := (Memory.wfFrom_cons low c rest).1 hc
  rw [Memory.read_cons, if_pos rfl, Memory.read_of_wfFrom m low' c.1 hm (not_le.1 hlt)] at hr
  exact hne hr

/-- The canonical form rests on the first address alone for its lower bound. -/
theorem Memory.wfFrom_head {c : Host.Cell} {rest : Memory} {low : Nat}
    (h : Memory.wfFrom low (c :: rest) = true) : Memory.wfFrom c.1 (c :: rest) = true := by
  rw [Memory.wfFrom_cons] at h ⊢
  exact ⟨le_rfl, h.2⟩

/-- Taking away the same first cell leaves canonical memories that still read alike. -/
theorem Memory.read_tail_eq {c : Host.Cell} {m m' : Memory} (hm : Memory.wfFrom (c.1 + 1) m = true)
    (hm' : Memory.wfFrom (c.1 + 1) m' = true) (hr : ∀ a, Memory.read (c :: m) a = Memory.read (c :: m') a)
    (a : Nat) : m.read a = m'.read a := by
  by_cases h : c.1 = a
  · have hlt : a < c.1 + 1 := by omega
    rw [Memory.read_of_wfFrom m _ a hm hlt, Memory.read_of_wfFrom m' _ a hm' hlt]
  · simpa only [Memory.read_cons, if_neg h] using hr a

/-- Memories in canonical form from some address on, not necessarily the same, are known by their reads. -/
theorem Memory.eq_of_wfFrom_of_read_eq {m m' : Memory} {low low' : Nat} (hm : Memory.wfFrom low m = true)
    (hm' : Memory.wfFrom low' m' = true) (hr : ∀ a, m.read a = m'.read a) : m = m' := by
  induction m generalizing low low' m' with
  | nil =>
    cases m' with
    | nil => rfl
    | cons d rest' =>
      have : d.1 + 1 ≤ d.1 := Memory.wfFrom_le_of_read_eq hm' (m := []) rfl (hr d.1).symm
      omega
  | cons c rest ih =>
    cases m' with
    | nil =>
      have : c.1 + 1 ≤ c.1 := Memory.wfFrom_le_of_read_eq hm (m := []) rfl (hr c.1)
      omega
    | cons d rest' =>
      have haddr : c.1 = d.1 := le_antisymm
        (Memory.wfFrom_le_of_read_eq hm' (Memory.wfFrom_head hm) (hr d.1).symm)
        (Memory.wfFrom_le_of_read_eq hm (Memory.wfFrom_head hm') (hr c.1))
      have hbyte : c.2 = d.2 := by
        simpa only [Memory.read_cons, haddr, if_true] using hr d.1
      obtain rfl : c = d := Prod.ext haddr hbyte
      obtain ⟨-, -, -, hrest⟩ := (Memory.wfFrom_cons low c rest).1 hm
      obtain ⟨-, -, -, hrest'⟩ := (Memory.wfFrom_cons low' c rest').1 hm'
      rw [ih hrest hrest' (Memory.read_tail_eq hrest hrest' hr)]

/-- Settles O47, by induction on the list, its lower bound generalised. -/
theorem canonicalMemoriesThatReadAlikeAreEqual : Obligations.CanonicalMemoriesThatReadAlikeAreEqual :=
  fun _ _ hm hm' hr => Memory.eq_of_wfFrom_of_read_eq hm hm' hr

/-! ### The fetch -/

variable (s : State)

/-- The fetched word as a number (R61). -/
theorem fetchWord_toNat :
    s.fetchWord.toNat = (s.mem.read (memIndex s.cfg.memOob s.pc.toNat)).toNat * 256
      + (s.mem.read (memIndex s.cfg.memOob (s.pc.toNat + 1))).toNat :=
  wordOfBytes_toNat _ _

/-- Settles O11. -/
theorem fetchIsBigEndianAndBoundsChecked : Obligations.FetchIsBigEndianAndBoundsChecked := by
  intro s
  refine ⟨fun hp => ⟨?_, fun _ => ?_, fun a ha => ?_⟩, fun hp => ⟨?_, ?_⟩⟩
  · simp only [fetchFault_eq_none, hp, memorySize, reduceCtorEq, false_or]
    omega
  · rw [fetchWord_toNat, hp, memIndex_fault, memIndex_fault]
  · obtain ⟨-, hpc, rfl⟩ := (fetchFault_eq_some s a).1 ha
    have hiff : s.pc = 0xFFF ↔ s.pc.toNat = 0xFFF := BitVec.toNat_inj.symm
    simp only [hiff, memorySize]
    split <;> omega
  · exact (fetchFault_eq_none s).2 (.inl hp)
  · rw [fetchWord_toNat, hp, memIndex_wrap12, memIndex_wrap12, memorySize]

/-! ### The placed word -/

@[simp] theorem length_bytesOfWord (w : Word) : (bytesOfWord w).length = 2 := rfl

/-- The two bytes that a word is stored as, high byte first, make up the word again (R61). -/
theorem wordOfBytes_bytesOfWord {w : Word} {hi lo : Byte} (h : bytesOfWord w = [hi, lo]) :
    wordOfBytes hi lo = w := by
  obtain ⟨rfl, rfl⟩ : w.extractLsb' 8 8 = hi ∧ w.extractLsb' 0 8 = lo := by simpa [bytesOfWord] using h
  refine BitVec.eq_of_toNat_eq ?_
  rw [wordOfBytes_toNat, BitVec.extractLsb'_toNat, BitVec.extractLsb'_toNat, Nat.shiftRight_eq_div_pow,
    Nat.shiftRight_zero]
  omega

variable {s}

/-- Where a fetch cannot fail, placing a word stores its two bytes from the pc on. -/
theorem placeWord_of_fetch (w : Word) (h : s.fetchFault = none) :
    s.placeWord w = { s with mem := s.mem.writeBlock s.cfg.memOob s.pc.toNat (bytesOfWord w) } := by
  rw [State.placeWord, h]

theorem fetchWord_placeWord (w : Word) (h : s.fetchFault = none) : (s.placeWord w).fetchWord = w := by
  have hread := Memory.read_writeBlock s.cfg.memOob s.mem s.pc.toNat (bytesOfWord w)
    (by rw [length_bytesOfWord, memorySize]; omega)
  have hhi := hread 0 (by simp)
  have hlo := hread 1 (by simp)
  rw [Nat.add_zero] at hhi
  rw [placeWord_of_fetch w h, State.fetchWord, hhi, hlo]
  exact wordOfBytes_bytesOfWord rfl

/-- Placing a word changes its two bytes alone. -/
theorem KeepsAllBut.placeWord (w : Word) (h : s.fetchFault = none) :
    KeepsAllBut [] [] [memIndex s.cfg.memOob s.pc.toNat, memIndex s.cfg.memOob (s.pc.toNat + 1)] s
      (s.placeWord w) := by
  rw [placeWord_of_fetch w h]
  refine ⟨fun p _ => ?_, fun _ _ => rfl, fun a ha => ?_⟩
  · cases p <;> simp [Part.same, State.entry, State.pressed]
  · simp only [List.mem_cons, List.not_mem_nil, or_false, not_or] at ha
    refine Memory.read_writeBlock_of_ne _ _ _ _ _ fun k hk => ?_
    rw [length_bytesOfWord] at hk
    interval_cases k
    · exact ha.1
    · exact ha.2

/-- Settles O20. -/
theorem placedWordIsFetched : Obligations.PlacedWordIsFetched := by
  intro s w hw hf
  refine ⟨?_, .placeWord _ hf⟩
  rw [State.withFetchWord, fetchWord_placeWord _ hf, BitVec.toNat_ofNat]
  omega

end Sys2Proof.Machine
end

section
/-! Formats and fields (spec/30_encoding.md R91, R92): the fields of a format's word, and a word rebuilt from
its fields. -/

namespace Sys2Proof

/-! ### The fields of a format's word (R92) -/

@[simp] theorem fieldOp_formatFA (op : BitVec 4) (nnn : Addr12) : fieldOp (formatFA op nnn) = op.toFin :=
  Fin.ext (by rw [fieldOp_val, formatFA_toNat, BitVec.val_toFin op]; omega)

@[simp] theorem fieldNNN_formatFA (op : BitVec 4) (nnn : Addr12) : fieldNNN (formatFA op nnn) = nnn :=
  BitVec.eq_of_toNat_eq (by rw [fieldNNN_toNat, formatFA_toNat]; omega)

@[simp] theorem fieldOp_formatFXK (op : BitVec 4) (x : Reg) (kk : Byte) : fieldOp (formatFXK op x kk) = op.toFin :=
  Fin.ext (by rw [fieldOp_val, formatFXK_toNat, BitVec.val_toFin op]; omega)

@[simp] theorem fieldX_formatFXK (op : BitVec 4) (x : Reg) (kk : Byte) : fieldX (formatFXK op x kk) = x :=
  Fin.ext (by rw [fieldX_val, formatFXK_toNat]; omega)

@[simp] theorem fieldKK_formatFXK (op : BitVec 4) (x : Reg) (kk : Byte) : fieldKK (formatFXK op x kk) = kk :=
  BitVec.eq_of_toNat_eq (by rw [fieldKK_toNat, formatFXK_toNat]; omega)

@[simp] theorem fieldOp_formatFXYN (op : BitVec 4) (x y : Reg) (n : BitVec 4) :
    fieldOp (formatFXYN op x y n) = op.toFin :=
  Fin.ext (by rw [fieldOp_val, formatFXYN_toNat, BitVec.val_toFin op]; omega)

@[simp] theorem fieldX_formatFXYN (op : BitVec 4) (x y : Reg) (n : BitVec 4) : fieldX (formatFXYN op x y n) = x :=
  Fin.ext (by rw [fieldX_val, formatFXYN_toNat]; omega)

@[simp] theorem fieldY_formatFXYN (op : BitVec 4) (x y : Reg) (n : BitVec 4) : fieldY (formatFXYN op x y n) = y :=
  Fin.ext (by rw [fieldY_val, formatFXYN_toNat]; omega)

@[simp] theorem fieldN_formatFXYN (op : BitVec 4) (x y : Reg) (n : BitVec 4) :
    fieldN (formatFXYN op x y n) = n.toFin :=
  Fin.ext (by rw [fieldN_val, formatFXYN_toNat, BitVec.val_toFin n]; omega)

@[simp] theorem toFin_nibble (x : Fin 16) : (nibble x).toFin = x :=
  Fin.ext (nibble_toNat x)

/-! ### A word from its fields (R92) -/

variable {w : Word}

theorem formatFA_fields {op : BitVec 4} (h : (fieldOp w).val = op.toNat) : formatFA op (fieldNNN w) = w := by
  rw [fieldOp_val] at h
  refine BitVec.eq_of_toNat_eq ?_
  rw [formatFA_toNat, fieldNNN_toNat]
  omega

theorem formatFXK_fields {op : BitVec 4} (h : (fieldOp w).val = op.toNat) :
    formatFXK op (fieldX w) (fieldKK w) = w := by
  rw [fieldOp_val] at h
  refine BitVec.eq_of_toNat_eq ?_
  rw [formatFXK_toNat, fieldX_val, fieldKK_toNat]
  omega

theorem formatFXYN_fields {op n : BitVec 4} (h : (fieldOp w).val = op.toNat) (hn : (fieldN w).val = n.toNat) :
    formatFXYN op (fieldX w) (fieldY w) n = w := by
  refine BitVec.eq_of_toNat_eq ?_
  rw [formatFXYN_toNat, word_eq_fields w, h, hn]

end Sys2Proof
end

section
/-! The decoder group by group (spec/30_encoding.md R111 to R117), and the checks of well-formedness in the
fields of the word (R112, R121). -/

namespace Sys2Proof

variable {c : Config} {w : Word}

/-! ### Each group's decoder (R111 to R116) -/

theorem decodeWord_group0 (h : fieldOp w = 0) : decodeWord c w = decodeGroup0 c w := by
  simp [decodeWord, h]

theorem decodeWord_group5 (h : fieldOp w = 5) :
    decodeWord c w = decodeGroup59 c (.seReg (fieldX w) (fieldY w)) w := by
  simp [decodeWord, h]

theorem decodeWord_group8 (h : fieldOp w = 8) : decodeWord c w = decodeGroup8 w := by
  simp [decodeWord, h]

theorem decodeWord_group9 (h : fieldOp w = 9) :
    decodeWord c w = decodeGroup59 c (.sneReg (fieldX w) (fieldY w)) w := by
  simp [decodeWord, h]

theorem decodeWord_groupE (h : fieldOp w = 0xE) : decodeWord c w = decodeGroupE w := by
  simp [decodeWord, h]

theorem decodeWord_groupF (h : fieldOp w = 0xF) : decodeWord c w = decodeGroupF w := by
  simp [decodeWord, h]

theorem decodeGroup59_of_ignored (i : Instr) (h : c.strict59 = false ∨ fieldN w = 0) : decodeGroup59 c i w = i :=
  if_neg fun ⟨hs, hn⟩ => h.elim (fun hs' => Bool.false_ne_true (hs'.symm.trans hs)) hn

theorem decodeGroup59_of_strict (i : Instr) (hs : c.strict59 = true) (hn : fieldN w ≠ 0) :
    decodeGroup59 c i w = .nop w :=
  if_pos ⟨hs, hn⟩

theorem decodeGroup8_of_unlisted (h : fieldN w ∈ [8, 9, 0xA, 0xB, 0xC, 0xD, 0xF]) : decodeGroup8 w = .nop w := by
  simp only [List.mem_cons, List.not_mem_nil, or_false] at h
  rcases h with h | h | h | h | h | h | h <;> simp [decodeGroup8, h]

theorem decodeGroupE_of_unlisted (h : fieldKK w ∉ [0x9E, 0xA1]) : decodeGroupE w = .nop w := by
  simp only [List.mem_cons, List.not_mem_nil, or_false, not_or] at h
  simp only [decodeGroupE, h, if_false]

theorem decodeGroupF_of_unlisted (h : fieldKK w ∉ [0x07, 0x0A, 0x15, 0x18, 0x1E, 0x29, 0x33, 0x55, 0x65]) :
    decodeGroupF w = .nop w := by
  simp only [List.mem_cons, List.not_mem_nil, or_false, not_or] at h
  simp only [decodeGroupF, h, if_false]

/-! ### The checks of well-formedness, in the fields of the word -/

theorem extractLsb'_eq_iff_fieldOp (b : BitVec 4) : w.extractLsb' 12 4 = b ↔ fieldOp w = b.toFin :=
  BitVec.toFin_inj.symm

theorem extractLsb'_eq_iff_fieldN (b : BitVec 4) : w.extractLsb' 0 4 = b ↔ fieldN w = b.toFin :=
  BitVec.toFin_inj.symm

/-- R121's table of unrecognised words, group by group. -/
theorem isUnrecognised_iff : isUnrecognised c w = true ↔
    (fieldOp w = 8 ∧ fieldN w ∈ [8, 9, 0xA, 0xB, 0xC, 0xD, 0xF])
      ∨ (fieldOp w = 0xE ∧ fieldKK w ∉ [0x9E, 0xA1])
      ∨ (fieldOp w = 0xF ∧ fieldKK w ∉ [0x07, 0x0A, 0x15, 0x18, 0x1E, 0x29, 0x33, 0x55, 0x65])
      ∨ (c.strict59 = true ∧ (fieldOp w = 5 ∨ fieldOp w = 9) ∧ fieldN w ≠ 0) := by
  simp [isUnrecognised, extractLsb'_eq_iff_fieldOp, extractLsb'_eq_iff_fieldN, fieldKK, or_assoc, and_assoc]

/-- R121's words are the no-op row's. -/
theorem decodeWord_of_isUnrecognised (h : isUnrecognised c w = true) : decodeWord c w = .nop w := by
  rcases isUnrecognised_iff.1 h with ⟨hop, hn⟩ | ⟨hop, hk⟩ | ⟨hop, hk⟩ | ⟨hs, hop | hop, hn⟩
  · rw [decodeWord_group8 hop, decodeGroup8_of_unlisted hn]
  · rw [decodeWord_groupE hop, decodeGroupE_of_unlisted hk]
  · rw [decodeWord_groupF hop, decodeGroupF_of_unlisted hk]
  · rw [decodeWord_group5 hop, decodeGroup59_of_strict _ hs hn]
  · rw [decodeWord_group9 hop, decodeGroup59_of_strict _ hs hn]

/-- In group 0 the address field determines the word. -/
theorem fieldNNN_eq_iff (h : fieldOp w = 0) (nnn : Addr12) : fieldNNN w = nnn ↔ w = formatFA 0 nnn := by
  constructor
  · rintro rfl
    exact (formatFA_fields (congrArg Fin.val h)).symm
  · rintro rfl
    exact fieldNNN_formatFA 0 nnn

theorem extractLsb'_fieldNNN (w : Word) : (fieldNNN w).extractLsb' 0 8 = fieldKK w :=
  BitVec.eq_of_toNat_eq (by
    rw [BitVec.extractLsb'_toNat, fieldNNN_toNat, fieldKK_toNat, Nat.shiftRight_zero]
    omega)

/-- R112 and the check of `sys` agree. -/
theorem isClsOrRet_eq_false_iff (h : fieldOp w = 0) :
    isClsOrRet c (fieldNNN w) = false ↔ decodeGroup0 c w = .sys (fieldNNN w) := by
  have hE0 : formatFA 0 0x0E0 = 0x00E0 := rfl
  have hEE : formatFA 0 0x0EE = 0x00EE := rfl
  cases hg : c.group0 with
  | fullWord =>
    simp only [isClsOrRet, decodeGroup0, hg, Bool.or_eq_false_iff, beq_eq_false_iff_ne, ne_eq,
      fieldNNN_eq_iff h, hE0, hEE]
    split_ifs <;> simp_all
  | lowByte =>
    simp only [isClsOrRet, decodeGroup0, hg, Bool.or_eq_false_iff, beq_eq_false_iff_ne, ne_eq,
      extractLsb'_fieldNNN]
    split_ifs <;> simp_all

theorem decodeGroup0_cases (c : Config) (w : Word) :
    decodeGroup0 c w = .cls ∨ decodeGroup0 c w = .ret ∨ decodeGroup0 c w = .sys (fieldNNN w) := by
  unfold decodeGroup0
  split <;> split_ifs <;> simp

/-! ### The groups' statements -/

/-- Settles O1. -/
theorem wordsOfEachFamilyDecode : Obligations.WordsOfEachFamilyDecode := by
  unfold Obligations.WordsOfEachFamilyDecode
  decide

/-- Settles O6. -/
theorem group0DecodesByItsMatch : Obligations.Group0DecodesByItsMatch := by
  intro c w hop
  rw [decodeWord_group0 hop]
  refine ⟨fun hg => ?_, fun hg => ?_, fun s => rfl⟩ <;> simp only [decodeGroup0, hg] <;>
    exact ⟨fun h => if_pos h, fun h => by rw [h]; rfl, fun h1 h2 => by rw [if_neg h1, if_neg h2]⟩

/-- Settles O7. -/
theorem groups5And9IgnoreTheLowNibbleUnlessStrict : Obligations.Groups5And9IgnoreTheLowNibbleUnlessStrict := by
  intro c w
  refine ⟨fun h => ⟨fun hop => ?_, fun hop => ?_⟩, ?_⟩
  · rw [decodeWord_group5 hop, decodeGroup59_of_ignored _ h]
  · rw [decodeWord_group9 hop, decodeGroup59_of_ignored _ h]
  · rintro hs hn (hop | hop)
    · rw [decodeWord_group5 hop, decodeGroup59_of_strict _ hs hn]
    · rw [decodeWord_group9 hop, decodeGroup59_of_strict _ hs hn]

/-- Settles O8. -/
theorem groups8EAndFSelectByTheirSecondField : Obligations.Groups8EAndFSelectByTheirSecondField := by
  intro c w
  refine ⟨fun hop => ?_, fun hop => ?_, fun hop => ?_⟩
  · rw [decodeWord_group8 hop]
    refine ⟨?_, ?_, ?_, ?_, ?_, ?_, ?_, ?_, ?_, decodeGroup8_of_unlisted⟩ <;>
      intro hn <;> simp [decodeGroup8, hn]
  · rw [decodeWord_groupE hop]
    refine ⟨?_, ?_, decodeGroupE_of_unlisted⟩ <;>
      intro hk <;> simp [decodeGroupE, hk]
  · rw [decodeWord_groupF hop]
    refine ⟨?_, ?_, ?_, ?_, ?_, ?_, ?_, ?_, ?_, decodeGroupF_of_unlisted⟩ <;>
      intro hk <;> simp [decodeGroupF, hk]

end Sys2Proof
end

section
/-! Decoding and encoding are inverse (spec/30_encoding.md R92, R105, R117, R121): a relation says once what
the decoder can answer. -/

namespace Sys2Proof

variable {c : Config} {w : Word}

/-! ### Decoding the encoder's word -/

/-- Settles O2. -/
theorem decodeOfEncodeIsTheInstruction : Obligations.DecodeOfEncodeIsTheInstruction := by
  intro c i hwf
  cases i with
  | sys nnn =>
    have hop : fieldOp (formatFA 0 nnn) = 0 := fieldOp_formatFA 0 nnn
    have hcr : isClsOrRet c (fieldNNN (formatFA 0 nnn)) = false := by
      rw [fieldNNN_formatFA]
      simpa [Instr.wellFormed] using hwf
    rw [encode, decodeWord_group0 hop, (isClsOrRet_eq_false_iff hop).1 hcr, fieldNNN_formatFA]
  | nop w => exact decodeWord_of_isUnrecognised hwf
  | cls | ret =>
    rw [encode, decodeWord_group0 rfl]
    cases hg : c.group0 <;> simp [decodeGroup0, hg, fieldKK]
  | jp | call | ldI | jpV0 => simp [encode, decodeWord]
  | seByte | sneByte | ldByte | addByte | rnd => simp [encode, decodeWord]
  | drw => simp [encode, decodeWord]
  | seReg | sneReg => simp [encode, decodeWord, decodeGroup59]
  | ldReg | or | and | xor | addReg | sub | shr | subn | shl => simp [encode, decodeWord, decodeGroup8]
  | skp | sknp => simp [encode, decodeWord, decodeGroupE]
  | ldVxDt | ldVxK | ldDtVx | ldStVx | addI | ldF | ldB | stRegs | ldRegs =>
    simp [encode, decodeWord, decodeGroupF]

/-! ### What the decoder can answer -/

/-- The instructions that a word can decode to, each with the fields that select it (R111 to R117);
`decodes` ties it to the decoder. -/
inductive Decodes (c : Config) (w : Word) : Instr → Prop where
  | group0 (hop : fieldOp w = 0) : Decodes c w (decodeGroup0 c w)
  | jp (hop : fieldOp w = 1) : Decodes c w (.jp (fieldNNN w))
  | call (hop : fieldOp w = 2) : Decodes c w (.call (fieldNNN w))
  | seByte (hop : fieldOp w = 3) : Decodes c w (.seByte (fieldX w) (fieldKK w))
  | sneByte (hop : fieldOp w = 4) : Decodes c w (.sneByte (fieldX w) (fieldKK w))
  | seReg (hop : fieldOp w = 5) (h : ¬ (c.strict59 = true ∧ fieldN w ≠ 0)) :
      Decodes c w (.seReg (fieldX w) (fieldY w))
  | ldByte (hop : fieldOp w = 6) : Decodes c w (.ldByte (fieldX w) (fieldKK w))
  | addByte (hop : fieldOp w = 7) : Decodes c w (.addByte (fieldX w) (fieldKK w))
  | ldReg (hop : fieldOp w = 8) (hn : fieldN w = 0) : Decodes c w (.ldReg (fieldX w) (fieldY w))
  | or (hop : fieldOp w = 8) (hn : fieldN w = 1) : Decodes c w (.or (fieldX w) (fieldY w))
  | and (hop : fieldOp w = 8) (hn : fieldN w = 2) : Decodes c w (.and (fieldX w) (fieldY w))
  | xor (hop : fieldOp w = 8) (hn : fieldN w = 3) : Decodes c w (.xor (fieldX w) (fieldY w))
  | addReg (hop : fieldOp w = 8) (hn : fieldN w = 4) : Decodes c w (.addReg (fieldX w) (fieldY w))
  | sub (hop : fieldOp w = 8) (hn : fieldN w = 5) : Decodes c w (.sub (fieldX w) (fieldY w))
  | shr (hop : fieldOp w = 8) (hn : fieldN w = 6) : Decodes c w (.shr (fieldX w) (fieldY w))
  | subn (hop : fieldOp w = 8) (hn : fieldN w = 7) : Decodes c w (.subn (fieldX w) (fieldY w))
  | shl (hop : fieldOp w = 8) (hn : fieldN w = 0xE) : Decodes c w (.shl (fieldX w) (fieldY w))
  | sneReg (hop : fieldOp w = 9) (h : ¬ (c.strict59 = true ∧ fieldN w ≠ 0)) :
      Decodes c w (.sneReg (fieldX w) (fieldY w))
  | ldI (hop : fieldOp w = 0xA) : Decodes c w (.ldI (fieldNNN w))
  | jpV0 (hop : fieldOp w = 0xB) : Decodes c w (.jpV0 (fieldNNN w))
  | rnd (hop : fieldOp w = 0xC) : Decodes c w (.rnd (fieldX w) (fieldKK w))
  | drw (hop : fieldOp w = 0xD) : Decodes c w (.drw (fieldX w) (fieldY w) (fieldN w))
  | skp (hop : fieldOp w = 0xE) (hk : fieldKK w = 0x9E) : Decodes c w (.skp (fieldX w))
  | sknp (hop : fieldOp w = 0xE) (hk : fieldKK w = 0xA1) : Decodes c w (.sknp (fieldX w))
  | ldVxDt (hop : fieldOp w = 0xF) (hk : fieldKK w = 0x07) : Decodes c w (.ldVxDt (fieldX w))
  | ldVxK (hop : fieldOp w = 0xF) (hk : fieldKK w = 0x0A) : Decodes c w (.ldVxK (fieldX w))
  | ldDtVx (hop : fieldOp w = 0xF) (hk : fieldKK w = 0x15) : Decodes c w (.ldDtVx (fieldX w))
  | ldStVx (hop : fieldOp w = 0xF) (hk : fieldKK w = 0x18) : Decodes c w (.ldStVx (fieldX w))
  | addI (hop : fieldOp w = 0xF) (hk : fieldKK w = 0x1E) : Decodes c w (.addI (fieldX w))
  | ldF (hop : fieldOp w = 0xF) (hk : fieldKK w = 0x29) : Decodes c w (.ldF (fieldX w))
  | ldB (hop : fieldOp w = 0xF) (hk : fieldKK w = 0x33) : Decodes c w (.ldB (fieldX w))
  | stRegs (hop : fieldOp w = 0xF) (hk : fieldKK w = 0x55) : Decodes c w (.stRegs (fieldX w))
  | ldRegs (hop : fieldOp w = 0xF) (hk : fieldKK w = 0x65) : Decodes c w (.ldRegs (fieldX w))
  | nop (h : isUnrecognised c w = true) : Decodes c w (.nop w)

theorem decodes_group59 (i : Instr) (hop : fieldOp w = 5 ∨ fieldOp w = 9)
    (hi : ¬ (c.strict59 = true ∧ fieldN w ≠ 0) → Decodes c w i) : Decodes c w (decodeGroup59 c i w) := by
  unfold decodeGroup59
  split
  · next h => exact .nop (isUnrecognised_iff.2 (.inr (.inr (.inr ⟨h.1, hop, h.2⟩))))
  · next h => exact hi h

theorem decodes_group8 (hop : fieldOp w = 8) : Decodes c w (decodeGroup8 w) := by
  unfold decodeGroup8
  split
  · next h => exact .ldReg hop (Fin.ext h)
  · next h => exact .or hop (Fin.ext h)
  · next h => exact .and hop (Fin.ext h)
  · next h => exact .xor hop (Fin.ext h)
  · next h => exact .addReg hop (Fin.ext h)
  · next h => exact .sub hop (Fin.ext h)
  · next h => exact .shr hop (Fin.ext h)
  · next h => exact .subn hop (Fin.ext h)
  · next h => exact .shl hop (Fin.ext h)
  · have hn : fieldN w ∈ [8, 9, 0xA, 0xB, 0xC, 0xD, 0xF] := by
      simp only [imp_false, List.mem_cons, List.not_mem_nil, or_false, Fin.ext_iff] at *
      omega
    exact .nop (isUnrecognised_iff.2 (.inl ⟨hop, hn⟩))

theorem decodes_groupE (hop : fieldOp w = 0xE) : Decodes c w (decodeGroupE w) := by
  unfold decodeGroupE
  split_ifs with h1 h2
  · exact .skp hop h1
  · exact .sknp hop h2
  · have hk : fieldKK w ∉ [0x9E, 0xA1] := by
      simp only [List.mem_cons, List.not_mem_nil, or_false, not_or]
      exact ⟨h1, h2⟩
    exact .nop (isUnrecognised_iff.2 (.inr (.inl ⟨hop, hk⟩)))

theorem decodes_groupF (hop : fieldOp w = 0xF) : Decodes c w (decodeGroupF w) := by
  unfold decodeGroupF
  split_ifs with h1 h2 h3 h4 h5 h6 h7 h8 h9
  · exact .ldVxDt hop h1
  · exact .ldVxK hop h2
  · exact .ldDtVx hop h3
  · exact .ldStVx hop h4
  · exact .addI hop h5
  · exact .ldF hop h6
  · exact .ldB hop h7
  · exact .stRegs hop h8
  · exact .ldRegs hop h9
  · have hk : fieldKK w ∉ [0x07, 0x0A, 0x15, 0x18, 0x1E, 0x29, 0x33, 0x55, 0x65] := by
      simp only [List.mem_cons, List.not_mem_nil, or_false, not_or]
      exact ⟨h1, h2, h3, h4, h5, h6, h7, h8, h9⟩
    exact .nop (isUnrecognised_iff.2 (.inr (.inr (.inl ⟨hop, hk⟩))))

/-- The decoder answers one of these for every word. -/
theorem decodes (c : Config) (w : Word) : Decodes c w (decodeWord c w) := by
  unfold decodeWord
  split
  · next h => exact .group0 (Fin.ext h)
  · next h => exact .jp (Fin.ext h)
  · next h => exact .call (Fin.ext h)
  · next h => exact .seByte (Fin.ext h)
  · next h => exact .sneByte (Fin.ext h)
  · next h => exact decodes_group59 _ (.inl (Fin.ext h)) (.seReg (Fin.ext h))
  · next h => exact .ldByte (Fin.ext h)
  · next h => exact .addByte (Fin.ext h)
  · next h => exact decodes_group8 (Fin.ext h)
  · next h => exact decodes_group59 _ (.inr (Fin.ext h)) (.sneReg (Fin.ext h))
  · next h => exact .ldI (Fin.ext h)
  · next h => exact .jpV0 (Fin.ext h)
  · next h => exact .rnd (Fin.ext h)
  · next h => exact .drw (Fin.ext h)
  · next h => exact decodes_groupE (Fin.ext h)
  · exact decodes_groupF (Fin.ext (by simp only [imp_false] at *; omega))

/-- The encoder gives the word back where no bit of it is without meaning. -/
theorem encode_of_decodes {i : Instr} (h : Decodes c w i) (hi : i.rowNumber ∉ [2, 3, 8, 20]) : encode i = w := by
  cases h with
  | group0 hop =>
    rcases decodeGroup0_cases c w with h | h | h <;> rw [h] at hi ⊢
    · simp [Instr.rowNumber] at hi
    · simp [Instr.rowNumber] at hi
    · exact formatFA_fields (congrArg Fin.val hop)
  | seReg | sneReg => simp [Instr.rowNumber] at hi
  | nop => rfl
  | jp hop | call hop | ldI hop | jpV0 hop => exact formatFA_fields (congrArg Fin.val hop)
  | seByte hop | sneByte hop | ldByte hop | addByte hop | rnd hop =>
    exact formatFXK_fields (congrArg Fin.val hop)
  | drw hop => exact formatFXYN_fields (congrArg Fin.val hop) (nibble_toNat _).symm
  | ldReg hop hn | or hop hn | and hop hn | xor hop hn | addReg hop hn | sub hop hn | shr hop hn | subn hop hn
  | shl hop hn => exact formatFXYN_fields (congrArg Fin.val hop) (congrArg Fin.val hn)
  | skp hop hk | sknp hop hk | ldVxDt hop hk | ldVxK hop hk | ldDtVx hop hk | ldStVx hop hk | addI hop hk
  | ldF hop hk | ldB hop hk | stRegs hop hk | ldRegs hop hk =>
    rw [encode, ← hk]
    exact formatFXK_fields (congrArg Fin.val hop)

theorem wellFormed_of_decodes {i : Instr} (h : Decodes c w i) : i.wellFormed c = true := by
  cases h with
  | group0 hop =>
    rcases decodeGroup0_cases c w with h | h | h <;> rw [h]
    · rfl
    · rfl
    · rw [Instr.wellFormed, (isClsOrRet_eq_false_iff hop).2 h]; rfl
  | nop h => exact h
  | _ => rfl

/-- Settles O3. -/
theorem everyWordDecodesWellFormedAndWhole : Obligations.EveryWordDecodesWellFormedAndWhole :=
  fun c w => ⟨wellFormed_of_decodes (decodes c w), encode_of_decodes (decodes c w)⟩

end Sys2Proof
end

section
/-! The opcode map (spec/30_encoding.md R120): rows of one priority are disjoint, and the first row that
covers a word is the row of the instruction it decodes to. -/

namespace Sys2Proof

variable {c : Config} {w : Word}

/-! ### Rows of one priority are disjoint -/

/-- Rows 1 and 36 alone give way to other rows. -/
def OpcodeRow.hasPriority (r : OpcodeRow) : Bool := !([1, 36].contains r.number)

/-- Two rows that cover one word agree where both masks read it. -/
theorem OpcodeRow.bits_and_mask {r q : OpcodeRow} (hr : r.covers w = true) (hq : q.covers w = true) :
    r.bits &&& q.mask = q.bits &&& r.mask := by
  rw [OpcodeRow.covers, beq_iff_eq] at hr hq
  rw [← hr, ← hq, BitVec.and_assoc, BitVec.and_assoc, BitVec.and_comm r.mask]

/-- The map rests on the two parameters of decoding alone. -/
def decodingConfig (group0 : Group0Match) (strict59 : Bool) : Config :=
  { Config.default with group0 := group0, strict59 := strict59 }

theorem opcodeRows_eq (c : Config) : opcodeRows c = opcodeRows (decodingConfig c.group0 c.strict59) := rfl

/-- Each row differs from every row before it in a bit that both masks read, rows 1 and 36 apart. -/
theorem opcodeRows_pairwise (c : Config) :
    (opcodeRows c).Pairwise fun r q => q.hasPriority = true → r.bits &&& q.mask ≠ q.bits &&& r.mask := by
  rw [opcodeRows_eq]
  cases c.group0 <;> cases c.strict59 <;> decide

/-- A row with priority that covers a word is the first to do so. -/
theorem find?_eq_of_covers {r : OpcodeRow} (hr : r ∈ opcodeRows c) (hp : r.hasPriority = true)
    (hw : r.covers w = true) : (opcodeRows c).find? (fun q => q.covers w) = some r := by
  obtain ⟨before, after, h⟩ := List.append_of_mem hr
  have hpair := opcodeRows_pairwise c
  rw [h, List.pairwise_append] at hpair
  refine List.find?_eq_some_iff_append.2 ⟨hw, before, after, h, fun q hq => ?_⟩
  have hne := hpair.2.2 q hq r List.mem_cons_self hp
  by_contra hcov
  exact hne (OpcodeRow.bits_and_mask (by simpa using hcov) hw)

/-- Settles O5. -/
theorem opcodeRowsDoNotOverlap : Obligations.OpcodeRowsDoNotOverlap := by
  intro c w r hr q hq hrn hqn hrw hqw
  have h1 := find?_eq_of_covers hr (by simpa [OpcodeRow.hasPriority] using hrn) hrw
  have h2 := find?_eq_of_covers hq (by simpa [OpcodeRow.hasPriority] using hqn) hqw
  exact Option.some.inj (h1.symm.trans h2)

/-! ### Masks as fields -/

section
variable (n : Nat) (b w : Word)

@[simp] theorem covers_FFFF : OpcodeRow.covers ⟨n, 0xFFFF#16, b⟩ w = (w == b) :=
  congrArg (· == b) (BitVec.and_allOnes (x := w))

@[simp] theorem covers_0000 : OpcodeRow.covers ⟨n, 0x0000#16, 0x0000#16⟩ w = true :=
  beq_iff_eq.2 BitVec.and_zero

theorem covers_iff_toNat (r : OpcodeRow) : r.covers w = true ↔ (w &&& r.mask).toNat = r.bits.toNat := by
  rw [OpcodeRow.covers, beq_iff_eq, BitVec.toNat_inj]

@[simp] theorem covers_F000 (hb : b.toNat % 0x1000 = 0) :
    OpcodeRow.covers ⟨n, 0xF000#16, b⟩ w = ((fieldOp w).val == b.toNat / 0x1000) := by
  have h := maskF000_toNat w
  rw [Bool.eq_iff_iff, covers_iff_toNat, beq_iff_eq]
  dsimp only [BitVec.ofNat_eq_ofNat] at h ⊢
  omega

@[simp] theorem covers_F00F (hb : b.toNat % 0x1000 < 0x10) :
    OpcodeRow.covers ⟨n, 0xF00F#16, b⟩ w =
      ((fieldOp w).val == b.toNat / 0x1000 && (fieldN w).val == b.toNat % 0x10) := by
  have h := maskF00F_toNat w
  rw [Bool.eq_iff_iff, covers_iff_toNat, Bool.and_eq_true, beq_iff_eq, beq_iff_eq]
  dsimp only [BitVec.ofNat_eq_ofNat] at h ⊢
  omega

@[simp] theorem covers_F0FF (hb : b.toNat % 0x1000 < 0x100) :
    OpcodeRow.covers ⟨n, 0xF0FF#16, b⟩ w =
      ((fieldOp w).val == b.toNat / 0x1000 && fieldKK w == b.setWidth 8) := by
  have h := maskF0FF_toNat w
  rw [Bool.eq_iff_iff, covers_iff_toNat, Bool.and_eq_true, beq_iff_eq, beq_iff_eq, ← BitVec.toNat_inj,
    BitVec.toNat_setWidth]
  dsimp only [BitVec.ofNat_eq_ofNat] at h ⊢
  omega

end

/-! ### The rows of a word's group -/

/-- The row is of group `op`, or is the no-op row, which is of every group. -/
def OpcodeRow.inGroup (op : Nat) (r : OpcodeRow) : Bool := r.number == 36 || r.bits.toNat / 0x1000 == op

/-- Every row but the no-op row reads `w[15:12]` whole. -/
theorem mask_of_mem_opcodeRows {r : OpcodeRow} (hr : r ∈ opcodeRows c) (hn : r.number ≠ 36) :
    r.mask.toNat / 0x1000 = 0xF := by
  have h : ∀ r ∈ opcodeRows c, r.number ≠ 36 → r.mask.toNat / 0x1000 = 0xF := by
    rw [opcodeRows_eq]
    cases c.group0 <;> cases c.strict59 <;> decide
  exact h r hr hn

/-- Only the rows of a word's group can cover it. -/
theorem inGroup_of_covers {r : OpcodeRow} (hr : r ∈ opcodeRows c) (hw : r.covers w = true) :
    r.inGroup (fieldOp w).val = true := by
  by_cases hn : r.number = 36
  · simp [OpcodeRow.inGroup, hn]
  · rw [OpcodeRow.covers, beq_iff_eq] at hw
    have hop : (fieldOp w).val &&& 0xF = (fieldOp w).val := and_all_ones (fieldOp w).val 4 (fieldOp w).isLt
    have : r.bits.toNat / 0x1000 = (fieldOp w).val := by
      rw [← hw, and_toNat_split, mask_of_mem_opcodeRows hr hn, ← fieldOp_val, hop]
      have := Nat.and_le_left (n := w.toNat % 0x1000) (m := r.mask.toNat % 0x1000)
      omega
    simp [OpcodeRow.inGroup, this]

theorem find?_opcodeRows (c : Config) (w : Word) :
    (opcodeRows c).find? (fun r => r.covers w) =
      ((opcodeRows c).filter (OpcodeRow.inGroup (fieldOp w).val)).find? fun r => r.covers w := by
  rw [List.find?_filter]
  refine List.find?_congr fun r hr => ?_
  cases hw : r.covers w with
  | false => simp
  | true => simp [inGroup_of_covers hr hw]

/-! ### The row of an instruction covers the encoder's word -/

open Laws in
/-- The family `InItsRow`, gathered. -/
theorem inItsRow : ∀ i : Instr, InItsRow.Statement i
  | .sys nnn => InItsRow.sys nnn
  | .cls => InItsRow.cls
  | .ret => InItsRow.ret
  | .jp nnn => InItsRow.jp nnn
  | .call nnn => InItsRow.call nnn
  | .seByte x kk => InItsRow.seByte x kk
  | .sneByte x kk => InItsRow.sneByte x kk
  | .seReg x y => InItsRow.seReg x y
  | .ldByte x kk => InItsRow.ldByte x kk
  | .addByte x kk => InItsRow.addByte x kk
  | .ldReg x y => InItsRow.ldReg x y
  | .or x y => InItsRow.or x y
  | .and x y => InItsRow.and x y
  | .xor x y => InItsRow.xor x y
  | .addReg x y => InItsRow.addReg x y
  | .sub x y => InItsRow.sub x y
  | .shr x y => InItsRow.shr x y
  | .subn x y => InItsRow.subn x y
  | .shl x y => InItsRow.shl x y
  | .sneReg x y => InItsRow.sneReg x y
  | .ldI nnn => InItsRow.ldI nnn
  | .jpV0 nnn => InItsRow.jpV0 nnn
  | .rnd x kk => InItsRow.rnd x kk
  | .drw x y n => InItsRow.drw x y n
  | .skp x => InItsRow.skp x
  | .sknp x => InItsRow.sknp x
  | .ldVxDt x => InItsRow.ldVxDt x
  | .ldVxK x => InItsRow.ldVxK x
  | .ldDtVx x => InItsRow.ldDtVx x
  | .ldStVx x => InItsRow.ldStVx x
  | .addI x => InItsRow.addI x
  | .ldF x => InItsRow.ldF x
  | .ldB x => InItsRow.ldB x
  | .stRegs x => InItsRow.stRegs x
  | .ldRegs x => InItsRow.ldRegs x
  | .nop w => InItsRow.nop w

/-- The rows that no parameter changes are those of the default map. -/
theorem mem_opcodeRows_of_default {r : OpcodeRow} (hr : r ∈ opcodeRows Config.default)
    (hn : r.number ∉ [2, 3, 8, 20]) : r ∈ opcodeRows c := by
  have h : ∀ r ∈ opcodeRows Config.default, r.number ∉ [2, 3, 8, 20] → r ∈ opcodeRows c := by
    rw [opcodeRows_eq c]
    cases c.group0 <;> cases c.strict59 <;> decide
  exact h r hr hn

/-- The encoder's word of an instruction is its row's, where the row has priority and no parameter changes it. -/
theorem find?_of_encode {i : Instr} (hw : encode i = w) (hi : i.rowNumber ∉ [1, 2, 3, 8, 20, 36]) :
    ((opcodeRows c).find? fun r => r.covers w).map (·.number) = some i.rowNumber := by
  obtain ⟨r, hr, hnum, hcov⟩ := inItsRow i
  rw [← hnum] at hi ⊢
  simp only [List.mem_cons, List.not_mem_nil, or_false, not_or] at hi
  have hmem : r ∈ opcodeRows c := mem_opcodeRows_of_default hr (by simp [hi])
  have hcov : r.covers w = true := by rw [OpcodeRow.covers, ← hw, hcov, beq_self_eq_true]
  rw [find?_eq_of_covers hmem (by simp [OpcodeRow.hasPriority, hi]) hcov, Option.map_some]

/-! ### The decoder's row -/

/-- The rows of group 0 (R112). -/
theorem find?_of_group0 (hop : fieldOp w = 0) :
    ((opcodeRows c).find? fun r => r.covers w).map (·.number) = some (decodeGroup0 c w).rowNumber := by
  rw [find?_opcodeRows, hop]
  cases hg : c.group0 <;> simp only [opcodeRows, hg, decodeGroup0]
  · by_cases h1 : w = 0x00E0
    · simp [h1, OpcodeRow.inGroup, Instr.rowNumber]
    · by_cases h2 : w = 0x00EE <;> simp_all [OpcodeRow.inGroup, Instr.rowNumber]
  · by_cases h1 : fieldKK w = 0xE0
    · simp [h1, hop, OpcodeRow.inGroup, Instr.rowNumber]
    · by_cases h2 : fieldKK w = 0xEE <;> simp_all [OpcodeRow.inGroup, Instr.rowNumber]

/-- A word that R121 lists has no row but the no-op row. -/
theorem find?_of_isUnrecognised (h : isUnrecognised c w = true) :
    ((opcodeRows c).find? fun r => r.covers w).map (·.number) = some 36 := by
  rw [find?_opcodeRows]
  rcases isUnrecognised_iff.1 h with ⟨hop, hn⟩ | ⟨hop, hk⟩ | ⟨hop, hk⟩ | ⟨hs, hop | hop, hn⟩
  · have hn : (fieldN w).val ∉ [0, 1, 2, 3, 4, 5, 6, 7, 14] := by
      generalize fieldN w = n at hn
      revert n
      decide
    simp only [List.mem_cons, List.not_mem_nil, or_false, not_or] at hn
    simp [hop, hn, opcodeRows, OpcodeRow.inGroup]
  · simp_all [opcodeRows, OpcodeRow.inGroup]
  · simp_all [opcodeRows, OpcodeRow.inGroup]
  · simp [hop, hs, hn, opcodeRows, OpcodeRow.inGroup]
  · simp [hop, hs, hn, opcodeRows, OpcodeRow.inGroup]

/-- The first row that covers a word is the row of the instruction it decodes to. -/
theorem find?_of_decodes {i : Instr} (h : Decodes c w i) :
    ((opcodeRows c).find? fun r => r.covers w).map (·.number) = some i.rowNumber := by
  have hw := encode_of_decodes h
  cases h with
  | group0 hop => exact find?_of_group0 hop
  | nop h => exact find?_of_isUnrecognised h
  | seReg hop hs | sneReg hop hs =>
    have hn : c.strict59 = true → (fieldN w).val = 0 := fun h => by simpa [h] using hs
    rw [find?_opcodeRows]
    cases hb : c.strict59 <;> simp [hop, hb, hn, opcodeRows, OpcodeRow.inGroup, Instr.rowNumber]
  | _ => exact find?_of_encode (hw (by simp [Instr.rowNumber])) (by simp [Instr.rowNumber])

/-- Settles O4. -/
theorem decoderAgreesWithTheOpcodeMap : Obligations.DecoderAgreesWithTheOpcodeMap :=
  fun c w => find?_of_decodes (decodes c w)

end Sys2Proof
end

section
/-! One cycle (spec/30_encoding.md R100 to R104): it always completes, and how it ends. -/

namespace Sys2Proof.Machine

variable {s t : State}

/-- A cycle that fetches ends as `settle` says, from what its instruction left. -/
theorem cycle_of_exec (r : Byte) (h : s.fault = none) (hf : s.fetchFault = none)
    (hx : exec (decodeWord s.cfg s.fetchWord) (s.fetched r s.fetchWord) = .next t) :
    cycle r s = .next (settle s t) := by
  rw [cycle_of_fetch s r h hf, runWord_of_next s r _ t hx]

/-- The three ways a cycle can go, each of which is a next state. -/
theorem exists_cycle_eq_next (r : Byte) (s : State) : ∃ t, cycle r s = .next t := by
  cases h : s.fault with
  | some f => exact ⟨s, cycle_of_faulted s r f h⟩
  | none =>
    cases hf : s.fetchFault with
    | some a => exact ⟨_, cycle_of_fetchFault s r a h hf⟩
    | none => exact ⟨_, cycle_of_exec r h hf (exec_eq _ _)⟩

/-- Settles O46. -/
theorem everyStepAnswersANextState : Obligations.EveryStepAnswersANextState :=
  fun s => exists_cycle_eq_next (Config.randomByte s.drawIndex) s

/-- The bounds of a fetch as R101 words them. -/
theorem fetchFault_eq_none_of_le (h : s.cfg.memOob = .wrap12 ∨ s.pc.toNat + 1 ≤ 0xFFF) : s.fetchFault = none :=
  (fetchFault_eq_none s).2 (h.imp_right fun hpc => by simp only [memorySize]; omega)

/-- Settles O9. -/
theorem stepRunsTheDecodedInstruction : Obligations.StepRunsTheDecodedInstruction := by
  rintro s hi lo i h hpc rfl rfl hdec t hx
  have hi : decodeWord s.cfg s.fetchWord = i := by
    simp only [decodeBytes, Except.ok.injEq, Prod.mk.injEq, and_true] at hdec
    exact hdec
  subst hi
  have hstep : step s = .next (settle s t) := cycle_of_exec _ h (fetchFault_eq_none_of_le hpc) hx
  rw [hstep]
  exact ⟨fun ht => by rw [settle_of_none s t ht]; rfl, fun f ht => by rw [settle_of_some s t f ht]; rfl⟩

/-! ### The port `cycle` -/

/-- The port's reply is read off the state that the cycle leaves (R100). -/
theorem run_cycle_of_next {r : Byte} (h : cycle r s = .next t) :
    (HostOp.cycle r).run s = .next (t, t.cycleReply) := by
  rw [HostOp.run, h]

theorem cycleReply_of_none (h : t.fault = none) : t.cycleReply = .ok := by
  rw [State.cycleReply, h]

theorem cycleReply_of_some {f : FaultRecord} (h : t.fault = some f) : t.cycleReply = .faulted f := by
  rw [State.cycleReply, h]

/-- A record latched by an instruction holds the fetch's pc and word (R251). -/
theorem record_of_exec_fetched {i : Instr} {r : Byte} {w : Word} {f : FaultRecord} (h : s.fault = none)
    (hx : exec i (s.fetched r w) = .next t) (hf : t.fault = some f) : f.pc = s.pc ∧ f.opcode = w := by
  obtain ⟨cause, addr, -, rfl⟩ | ⟨-, rfl⟩ := exec_cases hx
  · cases hf
    exact ⟨BitVec.add_sub_cancel s.pc 2, rfl⟩
  · rw [(effect_change _ i).fault_eq, State.fetched_fault, h] at hf
    cases hf

/-- The record of a failed fetch, with its address as R251 words it. -/
theorem fetchRecord_eq {a : Nat} (h : s.fetchFault = some a) :
    s.fetchRecord a = ⟨.fetchOutOfBounds, s.pc, 0, if s.pc = 0xFFF then 0x1000 else s.pc⟩ := by
  have hp := ((fetchFault_eq_some s a).1 h).1
  have ha := ((fetchIsBigEndianAndBoundsChecked s).1 hp).2.2 a h
  rw [State.fetchRecord, ha]
  split <;> simp

/-- Settles O10. -/
theorem cycleFetchesExecutesAndTicks : Obligations.CycleFetchesExecutesAndTicks := by
  intro r s
  refine ⟨fun f h => ?_, fun f h hp hpc hf => ?_, fun h hpc => ?_⟩
  · rw [run_cycle_of_next (cycle_of_faulted s r f h), cycleReply_of_some h]
  · have ha := (fetchFault_eq_some s _).2 ⟨hp, hpc, rfl⟩
    rw [run_cycle_of_next (cycle_of_fetchFault s r _ h ha), fetchRecord_eq ha, ← hf,
      cycleReply_of_some (State.latch_fault s f)]
    rfl
  · obtain ⟨t, hx⟩ : ∃ t, exec (decodeWord s.cfg s.fetchWord) (s.fetched r s.fetchWord) = .next t :=
      ⟨_, exec_eq _ _⟩
    have hc := cycle_of_exec r h (fetchFault_eq_none_of_le hpc) hx
    refine ⟨s.fetchWord, t, fetchWord_toNat s, hx, fun ht => ?_, fun f ht => ?_⟩
    · rw [settle_of_none s t ht] at hc
      have hreply : t.tick.cycleReply = .ok := cycleReply_of_none ht
      exact ⟨t.tick, by rw [run_cycle_of_next hc, hreply], timerTick_toNat t.dt, timerTick_toNat t.st, rfl⟩
    · rw [settle_of_some s t f ht] at hc
      obtain ⟨hfpc, hfop⟩ := record_of_exec_fetched h hx ht
      exact ⟨hfpc, hfop, by rw [run_cycle_of_next hc, cycleReply_of_some (State.latch_fault s f)]; rfl⟩

/-! ### The no-op words (R110, R121) -/

/-- A cycle whose instruction does nothing moves the pc past it and lets the timers fall. -/
theorem cycle_of_idle (r : Byte) (h : s.fault = none) (hf : s.fetchFault = none)
    (hx : exec (decodeWord s.cfg s.fetchWord) (s.fetched r s.fetchWord) = .next (s.fetched r s.fetchWord)) :
    cycle r s = .next (s.fetched r s.fetchWord).tick := by
  rw [cycle_of_exec r h hf hx, settle_of_none s (s.fetched r s.fetchWord) h]

theorem KeepsAllBut.fetched_tick (r : Byte) (w : Word) :
    KeepsAllBut [.pc, .opcode, .delayTimer, .soundTimer, .draws] [] [] s (s.fetched r w).tick := by
  refine .of_parts _ s _ rfl rfl fun p hp => ?_
  cases p with
  | pc | opcode | delayTimer | soundTimer | draws => simp at hp
  | _ => simp [Part.same, State.entry, State.pressed]

/-- Settles O19. -/
theorem noOpCycleOnlyAdvances : Obligations.NoOpCycleOnlyAdvances := by
  refine ⟨fun c w => decodeWord_of_isUnrecognised, fun c w hop h => ?_, fun _ _ => rfl, fun _ _ => rfl,
    fun r s h hf hw => ?_⟩
  · rw [decodeWord_group0 hop, (isClsOrRet_eq_false_iff hop).1 h]
  · have hx : exec (decodeWord s.cfg s.fetchWord) (s.fetched r s.fetchWord) = .next (s.fetched r s.fetchWord) := by
      rcases hw with hw | hw <;> rw [hw] <;> rfl
    exact ⟨_, cycle_of_idle r h hf hx, .fetched_tick r _, rfl, rfl, timerTick_toNat _, timerTick_toNat _⟩

end Sys2Proof.Machine
end

section
/-! The words of the control-transfer rows (spec/30_encoding.md R111, R112). -/

namespace Sys2Proof

variable {c : Config} {w : Word}

theorem decodeWord_group1 (h : fieldOp w = 1) : decodeWord c w = .jp (fieldNNN w) := by
  simp [decodeWord, h]

theorem decodeWord_group2 (h : fieldOp w = 2) : decodeWord c w = .call (fieldNNN w) := by
  simp [decodeWord, h]

theorem decodeWord_group3 (h : fieldOp w = 3) : decodeWord c w = .seByte (fieldX w) (fieldKK w) := by
  simp [decodeWord, h]

theorem decodeWord_group4 (h : fieldOp w = 4) : decodeWord c w = .sneByte (fieldX w) (fieldKK w) := by
  simp [decodeWord, h]

theorem decodeWord_groupB (h : fieldOp w = 0xB) : decodeWord c w = .jpV0 (fieldNNN w) := by
  simp [decodeWord, h]

/-- The word 00EE is RET under both matches of group 0 (R112). -/
theorem decodeWord_00EE (c : Config) : decodeWord c 0x00EE = .ret := by
  obtain ⟨hfull, hlow, -⟩ := group0DecodesByItsMatch c 0x00EE rfl
  cases hg : c.group0 with
  | fullWord =>
    obtain ⟨-, hret, -⟩ := hfull hg
    exact hret rfl
  | lowByte =>
    obtain ⟨-, hret, -⟩ := hlow hg
    exact hret rfl

end Sys2Proof
end

section
/-! Control transfer (spec/41_control.md): jumps, calls and returns, and the skips. -/

namespace Sys2Proof.Machine

/-! ### Faults -/

/-- A fault listed for an instruction ends every cycle that runs it (R251, R253). -/
theorem cycleFaults_of_listedFault {s : State} {i : Instr} {cause : FaultCause} {addr : Word}
    (h : listedFault i s = some (cause, addr)) : s.CycleFaults i cause addr := by
  rintro r hs hf rfl
  exact cycle_of_listedFault r hs hf h

/-! ### Targets (R130) -/

theorem target_toNat (t : Word) : (target t).toNat = t.toNat % 0x1000 := by
  rw [target, BitVec.toNat_and]
  exact Nat.and_two_pow_sub_one_eq_mod t.toNat 12

theorem addressOf_toNat (nnn : Addr12) : (addressOf nnn).toNat = nnn.toNat :=
  BitVec.toNat_setWidth_of_le (by decide)

/-- An address immediate is its own target. -/
theorem target_addressOf_toNat (nnn : Addr12) : (target (addressOf nnn)).toNat = nnn.toNat := by
  rw [target_toNat, addressOf_toNat, Nat.mod_eq_of_lt nnn.isLt]

/-- The sum of JP V0 needs no more than 16 bits, so only the target's mask cuts it (R139). -/
theorem target_add_addressOf_toNat (b : Byte) (nnn : Addr12) :
    (target (zext16 b + addressOf nnn)).toNat = (b.toNat + nnn.toNat) % 0x1000 := by
  rw [target_toNat, BitVec.toNat_add, addressOf_toNat, BitVec.toNat_setWidth_of_le (by decide),
    Nat.mod_eq_of_lt (show b.toNat + nnn.toNat < 2 ^ 16 by omega)]

variable (s : State)

/-! ### Frames -/

theorem KeepsAllBut.jumpTo (t : Word) : KeepsAllBut [.pc] [] [] s (s.jumpTo t) := by
  refine .of_parts _ s _ rfl rfl fun p hp => ?_
  cases p with
  | pc => simp at hp
  | _ => simp [Part.same, State.entry, State.pressed]

theorem KeepsAllBut.skipIf (taken : Bool) : KeepsAllBut [.pc] [] [] s (s.skipIf taken) := by
  refine .of_parts _ s _ (s.skipIf_v taken) (s.skipIf_mem taken) fun p hp => ?_
  cases p with
  | pc => simp at hp
  | _ => simp [Part.same, State.entry, State.pressed]

/-! ### Jumps, calls and returns -/

/-- Settles O21: the two answers of a pop, with the target's mask. -/
theorem retPopsTheMaskedReturnAddress : Obligations.RetPopsTheMaskedReturnAddress := by
  refine ⟨decodeWord_00EE, fun s h => ⟨pop_of_empty s (fun a t => t.jumpTo a) h, cycleFaults_of_listedFault (if_pos h)⟩,
    fun s j hj => ?_⟩
  have hsp : s.sp.val - 1 = j.val := by omega
  refine ⟨_, pop_of_entry s (fun a t => t.jumpTo a) (by omega), hsp, ?_, .of_parts _ s _ rfl rfl fun p hp => ?_⟩
  · simp only [State.jumpTo_pc, target_toNat, hsp]
  · cases p with
    | pc | stackPointer => simp at hp
    | _ => simp [Part.same, State.entry, State.pressed]

/-- Settles O22: a jump writes the pc alone, and its target is masked. -/
theorem jumpsGoToTheirMaskedTarget : Obligations.JumpsGoToTheirMaskedTarget :=
  ⟨fun _ _ => ⟨decodeWord_group1, decodeWord_groupB⟩, fun nnn s =>
    ⟨⟨_, rfl, target_addressOf_toNat nnn, .jumpTo s _⟩,
      _, rfl, target_add_addressOf_toNat (s.reg 0) nnn, .jumpTo s _⟩⟩

/-- Settles O23: the two answers of a push, which writes the entry at sp. -/
theorem callPushesTheNextAddressAndJumps : Obligations.CallPushesTheNextAddressAndJumps := by
  refine ⟨fun _ _ => decodeWord_group2, fun nnn s =>
    ⟨fun h => ⟨push_of_full s (fun t => t.jumpTo (addressOf nnn)) h, cycleFaults_of_listedFault (if_pos h)⟩, fun j hj => ?_⟩⟩
  refine ⟨_, push_of_room s (fun t => t.jumpTo (addressOf nnn)) (by omega), ?_, fun k hk => ?_,
    congrArg (· + 1) hj, target_addressOf_toNat nnn, .of_parts _ s _ rfl rfl fun p hp => ?_⟩
  · simp [State.entry, hj]
  · have hne : j.val ≠ k.val := fun e => hk (Fin.ext e.symm)
    simp [State.entry, hj, hne]
  · cases p with
    | pc | stackPointer | stackEntries => simp at hp
    | _ => simp [Part.same, State.pressed]

/-! ### Skips (R131) -/

/-- A skip adds 2 to the pc, modulo 2^16. -/
theorem skipIf_pc_toNat (taken : Bool) :
    (s.skipIf taken).pc.toNat = if taken then (s.pc.toNat + 2) % 65536 else s.pc.toNat := by
  cases taken with
  | false => rfl
  | true => exact BitVec.toNat_add s.pc 2

/-- The comparison for equality of the rows SE. -/
theorem skipIf_beq_pc_toNat (a b : Byte) :
    (s.skipIf (a == b)).pc.toNat = if a = b then (s.pc.toNat + 2) % 65536 else s.pc.toNat := by
  simp only [skipIf_pc_toNat, beq_iff_eq]

/-- The comparison for inequality of the rows SNE. -/
theorem skipIf_bne_pc_toNat (a b : Byte) :
    (s.skipIf (a != b)).pc.toNat = if a ≠ b then (s.pc.toNat + 2) % 65536 else s.pc.toNat := by
  simp only [skipIf_pc_toNat, bne_iff_ne]

/-- Settles O24: a conditional skip writes the pc alone. -/
theorem byteSkipsCompareWithTheImmediate : Obligations.ByteSkipsCompareWithTheImmediate :=
  ⟨fun _ _ => ⟨decodeWord_group3, decodeWord_group4⟩, fun x kk s =>
    ⟨⟨_, rfl, .skipIf s _, skipIf_beq_pc_toNat s (s.reg x) kk⟩,
      _, rfl, .skipIf s _, skipIf_bne_pc_toNat s (s.reg x) kk⟩⟩

/-- Settles O25: the words by R113, the skips as those with a byte. -/
theorem registerSkipsCompareTwoRegisters : Obligations.RegisterSkipsCompareTwoRegisters :=
  ⟨groups5And9IgnoreTheLowNibbleUnlessStrict, fun x y s =>
    ⟨⟨_, rfl, .skipIf s _, skipIf_beq_pc_toNat s (s.reg x) (s.reg y)⟩,
      _, rfl, .skipIf s _, skipIf_bne_pc_toNat s (s.reg x) (s.reg y)⟩⟩

end Sys2Proof.Machine
end

section
/-! The draw of a cycle (spec/42_alu.md R178): Cxkk stores it masked, and no other instruction reads it. -/

namespace Sys2Proof.Machine

variable (s : State)

theorem skipIf_withDraw (taken : Bool) (r : Byte) :
    State.skipIf { s with draw := r } taken = { s.skipIf taken with draw := r } := by
  cases taken <;> rfl

/-- The effect of an instruction other than Cxkk is the same whatever the draw is. -/
theorem effect_withDraw {i : Instr} (h : ∀ x kk, i ≠ .rnd x kk) (r : Byte) :
    effect i { s with draw := r } = { effect i s with draw := r } := by
  cases i with
  | rnd x kk => exact absurd rfl (h x kk)
  | seByte | sneByte | seReg | sneReg | skp | sknp => exact skipIf_withDraw s _ r
  | ldVxK =>
    have hk : State.firstKey { s with draw := r } = s.firstKey := rfl
    simp only [effect, hk]
    split <;> rfl
  | _ => rfl

variable {s}

/-- A cycle that executes Cxkk leaves the masked draw in `V[x]`. -/
theorem cycle_of_rnd (r : Byte) {x : Reg} {kk : Byte} (h : s.fault = none) (hf : s.fetchFault = none)
    (hdec : decodeWord s.cfg s.fetchWord = .rnd x kk) : ∃ t, cycle r s = .next t ∧ t.reg x = r &&& kk := by
  refine ⟨_, cycle_of_no_listedFault r h hf (by rw [hdec]; rfl), ?_⟩
  rw [hdec]
  exact (s.fetched r s.fetchWord).reg_setReg_self x (r &&& kk)

/-- Settles O18, by `effect_withDraw`; a faulting cycle takes its draw back. -/
theorem onlyRndDependsOnTheDraw : Obligations.OnlyRndDependsOnTheDraw := by
  refine fun r s h hf => ⟨fun x kk => cycle_of_rnd r h hf, fun hdec r' => ?_⟩
  cases hl : listedFault (decodeWord s.cfg s.fetchWord) s with
  | some f => exact ⟨_, _, cycle_of_listedFault r h hf hl, cycle_of_listedFault r' h hf hl, rfl⟩
  | none =>
    have hfetched : s.fetched r' s.fetchWord = { s.fetched r s.fetchWord with draw := r' } := rfl
    refine ⟨_, _, cycle_of_no_listedFault r h hf hl, cycle_of_no_listedFault r' h hf hl, ?_⟩
    rw [hfetched, effect_withDraw _ hdec]
    rfl

end Sys2Proof.Machine
end

section
/-! The words of the rows LD and ADD with a byte, and RND (spec/30_encoding.md R111). -/

namespace Sys2Proof

variable {c : Config} {w : Word}

theorem decodeWord_group6 (h : fieldOp w = 6) : decodeWord c w = .ldByte (fieldX w) (fieldKK w) := by
  simp [decodeWord, h]

theorem decodeWord_group7 (h : fieldOp w = 7) : decodeWord c w = .addByte (fieldX w) (fieldKK w) := by
  simp [decodeWord, h]

theorem decodeWord_groupC (h : fieldOp w = 0xC) : decodeWord c w = .rnd (fieldX w) (fieldKK w) := by
  simp [decodeWord, h]

end Sys2Proof
end

section
/-! Arithmetic, logic and random (spec/42_alu.md): the rows that write `V[x]` alone, and the rows that write VF
and `V[x]` in the configured order (R166). -/

namespace Sys2Proof.Machine

/-! ### Rows that write `V[x]` alone -/

/-- Settles O31: the draw is read from its field, and `V[x]` alone is written. -/
theorem rndStoresTheMaskedDraw : Obligations.RndStoresTheMaskedDraw :=
  ⟨fun _ _ => decodeWord_groupC, fun x kk s => ⟨_, rfl, s.reg_setReg_self x (s.draw &&& kk), .setReg s x _⟩⟩

/-- Settles O26: both are one register write, and the sum is modulo 256. -/
theorem byteLoadAndAddWriteOnlyVx : Obligations.ByteLoadAndAddWriteOnlyVx := by
  refine ⟨fun _ _ => ⟨decodeWord_group6, decodeWord_group7⟩, fun x kk s =>
    ⟨⟨_, rfl, s.reg_setReg_self x kk, .setReg s x kk⟩, _, rfl, ?_, .setReg s x (s.reg x + kk)⟩⟩
  rw [State.reg_setReg_self, BitVec.toNat_add]

/-- Settles O27: each of the four is one register write. -/
theorem copyAndLogicWriteOnlyVx : Obligations.CopyAndLogicWriteOnlyVx := by
  refine ⟨fun c w hop => ?_, fun x y s =>
    ⟨⟨_, rfl, s.reg_setReg_self x _, .setReg s x _⟩, ⟨_, rfl, s.reg_setReg_self x _, .setReg s x _⟩,
      ⟨_, rfl, s.reg_setReg_self x _, .setReg s x _⟩, _, rfl, s.reg_setReg_self x _, .setReg s x _⟩⟩
  obtain ⟨hld, hor, hand, hxor, -⟩ := (groups8EAndFSelectByTheirSecondField c w).1 hop
  exact ⟨hld, hor, hand, hxor⟩

/-! ### VF, then `V[x]` -/

theorem reg_setFlagThenReg_self (s : State) (x : Reg) (flag b : Byte) : (s.setFlagThenReg x flag b).reg x = b :=
  State.reg_setReg_self _ x b

theorem reg_setFlagThenReg_regF (s : State) {x : Reg} (hx : x ≠ regF) (flag b : Byte) :
    (s.setFlagThenReg x flag b).reg regF = flag := by
  rw [State.setFlagThenReg, State.reg_setReg_of_ne _ _ _ _ hx.symm, State.reg_setReg_self]

/-- A flag is its condition, as a number. -/
theorem flagByte_decide (p : Prop) [Decidable p] : flagByte (decide p) = if p then 1 else 0 := by
  simp [flagByte]

/-- Settles O28: the sum is taken before VF is written, and written after it. -/
theorem addSetsTheCarry : Obligations.AddSetsTheCarry := by
  refine ⟨fun c w hop => ?_, fun x y s => ⟨_, rfl, ?_, fun hx => ?_, .setFlagThenReg s x _ _⟩⟩
  · obtain ⟨-, -, -, -, hadd, -⟩ := (groups8EAndFSelectByTheirSecondField c w).1 hop
    exact hadd
  · rw [reg_setFlagThenReg_self, BitVec.toNat_add]
  · rw [reg_setFlagThenReg_regF s hx, carryFlag, flagByte_decide]

/-! ### The configured order (R166) -/

section

variable (s : State) (flag result : Byte → Byte → Byte) (x y : Reg)

theorem KeepsAllBut.aluWithFlag : KeepsAllBut [] [regF, x] [] s (aluWithFlag flag result x y s) := by
  rw [aluWithFlag_eq]
  exact .setFlagThenReg s x _ _

variable {s x}

theorem reg_aluWithFlag_regF (hx : x ≠ regF) :
    (aluWithFlag flag result x y s).reg regF = flag (s.reg x) (s.reg y) := by
  rw [aluWithFlag_eq, reg_setFlagThenReg_regF s hx]

/-- `Snapshot`: the result is that of the operands at the start. -/
theorem reg_aluWithFlag_of_snapshot (h : s.cfg.aluOrder = .snapshot) :
    (aluWithFlag flag result x y s).reg x = result (s.reg x) (s.reg y) := by
  rw [aluWithFlag_eq, reg_setFlagThenReg_self]
  simp only [aluResult, h]

/-- `Sequential`: an operand that is VF is the flag just written. -/
theorem reg_aluWithFlag_of_sequential (h : s.cfg.aluOrder = .sequential) :
    (aluWithFlag flag result x y s).reg x =
      result (if x = regF then flag (s.reg x) (s.reg y) else s.reg x)
        (if y = regF then flag (s.reg x) (s.reg y) else s.reg y) := by
  rw [aluWithFlag_eq, reg_setFlagThenReg_self]
  simp only [aluResult, h, State.reg_setReg]

end

/-! ### Subtractions (R168, R170) -/

theorem toNat_sub_byte (a b : Byte) : (a - b).toNat = (a.toNat + 256 - b.toNat) % 256 := by
  rw [BitVec.toNat_sub]
  omega

/-- Settles O29, each order by its lemma on `aluWithFlag`. -/
theorem subtractionsSetTheNoBorrowFlag : Obligations.SubtractionsSetTheNoBorrowFlag := by
  refine ⟨fun c w hop => ?_, fun x y s flag => ⟨fun hflag => ?_, fun hflag => ?_⟩⟩
  · obtain ⟨-, -, -, -, -, hsub, -, hsubn, -⟩ := (groups8EAndFSelectByTheirSecondField c w).1 hop
    exact ⟨hsub, hsubn⟩
  · obtain rfl : flag = subFlag (s.reg x) (s.reg y) := by rw [hflag, subFlag, flagByte_decide]
    exact ⟨_, rfl, reg_aluWithFlag_regF _ _ y,
      fun h => by rw [reg_aluWithFlag_of_snapshot _ _ y h, toNat_sub_byte],
      reg_aluWithFlag_of_sequential _ _ y, .aluWithFlag s _ _ x y⟩
  · obtain rfl : flag = subnFlag (s.reg x) (s.reg y) := by rw [hflag, subnFlag, flagByte_decide]
    exact ⟨_, rfl, reg_aluWithFlag_regF _ _ y,
      fun h => by rw [reg_aluWithFlag_of_snapshot _ _ y h, toNat_sub_byte],
      reg_aluWithFlag_of_sequential _ _ y, .aluWithFlag s _ _ x y⟩

/-! ### Shifts (R169, R171) -/

theorem toNat_shr_one (a : Byte) : (a >>> 1).toNat = a.toNat / 2 := by
  rw [BitVec.toNat_ushiftRight, Nat.shiftRight_one]

theorem toNat_shl_one (a : Byte) : (a <<< 1).toNat = a.toNat * 2 % 256 := by
  rw [BitVec.toNat_shiftLeft, Nat.shiftLeft_eq, pow_one]

theorem shrFlag_toNat (a : Byte) : (shrFlag a).toNat = a.toNat % 2 := by
  rw [shrFlag, BitVec.toNat_and]
  exact Nat.and_one_is_mod a.toNat

/-- Nothing is left of a flag that is shifted out itself. -/
theorem shrFlag_shr_one (a : Byte) : shrFlag a >>> 1 = 0 := by
  refine BitVec.eq_of_toNat_eq ?_
  rw [toNat_shr_one, shrFlag_toNat]
  exact Nat.div_eq_of_lt (Nat.mod_lt _ two_pos)

theorem shlFlag_toNat (a : Byte) : (shlFlag a).toNat = a.toNat / 128 := by
  have hbit : (shlFlag a).toNat = (a.toNat >>> 7) % 2 := by
    rw [shlFlag, BitVec.toNat_and, BitVec.toNat_ushiftRight]
    exact Nat.and_one_is_mod _
  rw [hbit, Nat.shiftRight_eq_div_pow]
  omega

section

variable {s : State} (flag result : Byte → Byte) {x : Reg} (y : Reg)

/-- The order does not show in a row that reads `V[x]` alone, unless VF is that operand. -/
theorem reg_aluWithFlag_unary (h : s.cfg.aluOrder = .snapshot ∨ x ≠ regF) :
    (aluWithFlag (fun a _ => flag a) (fun a _ => result a) x y s).reg x = result (s.reg x) := by
  cases ho : s.cfg.aluOrder with
  | snapshot => exact reg_aluWithFlag_of_snapshot _ _ y ho
  | sequential =>
    have hx : x ≠ regF := h.resolve_left (by simp [ho])
    rw [reg_aluWithFlag_of_sequential _ _ y ho, if_neg hx]

/-- Under `Sequential` the operand VF is the flag just written. -/
theorem reg_aluWithFlag_unary_regF (h : s.cfg.aluOrder = .sequential) :
    (aluWithFlag (fun a _ => flag a) (fun a _ => result a) regF y s).reg regF = result (flag (s.reg regF)) := by
  rw [reg_aluWithFlag_of_sequential _ _ y h, if_pos rfl]

end

/-- Settles O30: the shifts read `V[x]` alone, which under `Sequential` is the flag where x is F. -/
theorem shiftsMoveTheLostBitToVF : Obligations.ShiftsMoveTheLostBitToVF := by
  refine ⟨fun c w hop => ?_, fun x y s flag => ⟨fun hflag => ?_, fun hflag => ?_⟩⟩
  · obtain ⟨-, -, -, -, -, -, hshr, -, hshl, -⟩ := (groups8EAndFSelectByTheirSecondField c w).1 hop
    exact ⟨hshr, hshl⟩
  · obtain rfl : flag = shrFlag (s.reg x) := BitVec.eq_of_toNat_eq (by rw [hflag, shrFlag_toNat])
    refine ⟨_, rfl, reg_aluWithFlag_regF _ _ y, fun h => ?_, fun h hx => ?_, .aluWithFlag s _ _ x y⟩
    · rw [reg_aluWithFlag_unary shrFlag (· >>> 1) y h, toNat_shr_one]
    · subst hx
      rw [reg_aluWithFlag_unary_regF shrFlag (· >>> 1) y h, shrFlag_shr_one]
  · obtain rfl : flag = shlFlag (s.reg x) := BitVec.eq_of_toNat_eq (by rw [hflag, shlFlag_toNat])
    refine ⟨_, rfl, reg_aluWithFlag_regF _ _ y, fun h => ?_, fun h hx => ?_, .aluWithFlag s _ _ x y⟩
    · rw [reg_aluWithFlag_unary shlFlag (· <<< 1) y h, toNat_shl_one]
    · subst hx
      rw [reg_aluWithFlag_unary_regF shlFlag (· <<< 1) y h, toNat_shl_one, hflag]
      omega

end Sys2Proof.Machine
end

section
/-! The words of the row LD I (spec/30_encoding.md R111). -/

namespace Sys2Proof

variable {c : Config} {w : Word}

theorem decodeWord_groupA (h : fieldOp w = 0xA) : decodeWord c w = .ldI (fieldNNN w) := by
  simp [decodeWord, h]

end Sys2Proof
end

section
/-! The index register and memory transfer (spec/43_index_memory.md): the rows that write I alone, and the rows
that move bytes to or from the data addresses, all of them checked first (R191). -/

namespace Sys2Proof.Machine

variable (s : State)

/-! ### Frames -/

theorem KeepsAllBut.withIndex (a : Word) : KeepsAllBut [.index] [] [] s { s with i := a } := by
  refine .of_parts _ s _ rfl rfl fun p hp => ?_
  cases p with
  | index => simp at hp
  | _ => simp [Part.same, State.entry, State.pressed]

/-- A load keeps all but the registers it loads. -/
theorem KeepsAllBut.regsLoaded (x : Reg) :
    KeepsAllBut [] ((List.finRange 16).filter (· ≤ x)) [] s { s with v := s.regsLoaded x } := by
  refine ⟨fun p _ => ?_, effect_reg s (.ldRegs x), fun _ _ => rfl⟩
  cases p <;> simp [Part.same, State.entry, State.pressed]

/-! ### The bounds fault (R251, R255) -/

/-- A listed fault is what the instruction latches, and it rolls back every cycle that runs it. -/
theorem faults_of_listedFault {s : State} {i : Instr} {cause : FaultCause} {addr : Word}
    (h : listedFault i s = some (cause, addr)) :
    exec i s = .next (s.latch ⟨cause, s.pc - 2, s.opcode, addr⟩) ∧ s.CycleFaults i cause addr := by
  refine ⟨?_, cycleFaults_of_listedFault h⟩
  rw [exec_eq, h, latchOr_some, State.record]

/-- The fault of an instruction whose last data byte is at `I + last`. -/
theorem listedDataFault_of_lt {s : State} {last : Nat} (hp : s.cfg.memOob = .fault) (h : 0xFFF < s.i.toNat + last) :
    s.listedDataFault (last + 1) = some (.dataOutOfBounds, if s.i.toNat ≤ 0xFFF then 0x1000 else s.i) :=
  if_pos ⟨hp, last.succ_pos, by omega⟩

/-! ### What is computed and what is moved -/

/-- The glyph address needs no more than 16 bits, so nothing is lost (R193). -/
theorem glyphAddress_toNat (b : Byte) : (glyphAddress b).toNat = 0x050 + 5 * b.toNat :=
  (BitVec.toNat_ofNat _ _).trans (Nat.mod_eq_of_lt (show 0x050 + 5 * b.toNat < 2 ^ 16 by omega))

@[simp] theorem length_decimalDigits (b : Byte) : (decimalDigits b).length = 3 := rfl

theorem map_toNat_decimalDigits (b : Byte) :
    (decimalDigits b).map BitVec.toNat = [b.toNat / 100, b.toNat / 10 % 10, b.toNat % 10] := by
  have hdigit : ∀ d < 2 ^ 8, (BitVec.ofNat 8 d).toNat = d := fun d hd =>
    (BitVec.toNat_ofNat d 8).trans (Nat.mod_eq_of_lt hd)
  simp only [decimalDigits, List.map_cons, List.map_nil]
  rw [hdigit (b.toNat / 100) (by omega), hdigit (b.toNat / 10 % 10) (by omega), hdigit (b.toNat % 10) (by omega)]

/-- A stored byte, as a number. -/
theorem toNat_read_storeData {bytes : List Byte} {values : List Nat} (h : bytes.map BitVec.toNat = values)
    (hlen : bytes.length ≤ 16) (k : Nat) (hk : k < values.length) :
    ((s.storeData bytes).mem.read (s.dataIndex k)).toNat = values[k] := by
  subst h
  rw [read_storeData s bytes hlen k (by simpa using hk), List.getElem_map]

theorem getElem_regsUpTo (x k : Reg) (h : k.val < (s.regsUpTo x).length) : (s.regsUpTo x)[k.val] = s.reg k := by
  simp [State.regsUpTo, State.reg]

/-! ### Rows that write I alone -/

/-- Settles O32: each of the three writes I alone, and only the sum is cut to 16 bits. -/
theorem indexInstructionsWriteOnlyI : Obligations.IndexInstructionsWriteOnlyI := by
  refine ⟨fun c w => ?_, fun nnn s => ⟨_, rfl, addressOf_toNat nnn, .withIndex s _⟩, fun x s =>
    ⟨⟨_, rfl, ?_, .withIndex s _⟩, _, rfl, glyphAddress_toNat (s.reg x), .withIndex s _⟩⟩
  · obtain ⟨-, -, hF⟩ := groups8EAndFSelectByTheirSecondField c w
    refine ⟨decodeWord_groupA, fun hop => ?_, fun hop => ?_⟩
    · obtain ⟨-, -, -, -, haddI, -⟩ := hF hop
      exact haddI
    · obtain ⟨-, -, -, -, -, hldF, -⟩ := hF hop
      exact hldF
  · rw [BitVec.toNat_add, BitVec.toNat_setWidth_of_le (by decide)]

/-! ### Memory transfer -/

/-- Settles O33: the digits are the stored bytes, as numbers. -/
theorem bcdStoresThreeDigits : Obligations.BcdStoresThreeDigits := by
  refine ⟨fun c w hop => ?_, fun x s => ⟨fun h => ?_, fun hp hlt => ?_⟩⟩
  · obtain ⟨-, -, hF⟩ := groups8EAndFSelectByTheirSecondField c w
    obtain ⟨-, -, -, -, -, -, hldB, -⟩ := hF hop
    exact hldB
  · have hread := toNat_read_storeData s (map_toNat_decimalDigits (s.reg x)) (by simp)
    exact ⟨_, withData_of_inBounds s 3 _ h, hread 0 (by simp), hread 1 (by simp), hread 2 (by simp),
      .storeData s (decimalDigits (s.reg x))⟩
  · exact faults_of_listedFault (listedDataFault_of_lt hp hlt)

/-- Settles O34: the stored bytes are `V[0]` to `V[x]`. -/
theorem storeRegistersStoresV0ToVx : Obligations.StoreRegistersStoresV0ToVx := by
  refine ⟨fun c w hop => ?_, fun x s => ⟨fun h => ?_, fun hp hlt => ?_⟩⟩
  · obtain ⟨-, -, hF⟩ := groups8EAndFSelectByTheirSecondField c w
    obtain ⟨-, -, -, -, -, -, -, hst, -⟩ := hF hop
    exact hst
  · have hlen := length_regsUpTo s x
    refine ⟨_, withData_of_inBounds s (x.val + 1) _ h, fun k hk => ?_, hlen ▸ .storeData s (s.regsUpTo x)⟩
    have hk' : k.val < (s.regsUpTo x).length := by rw [hlen]; exact Nat.lt_succ_of_le hk
    rw [read_storeData s (s.regsUpTo x) (by omega) k.val hk', getElem_regsUpTo]
  · exact faults_of_listedFault (listedDataFault_of_lt hp hlt)

/-- Settles O35: the registers up to `V[x]` are the data bytes, and memory is only read. -/
theorem loadRegistersLoadsV0ToVx : Obligations.LoadRegistersLoadsV0ToVx := by
  refine ⟨fun c w hop => ?_, fun x s => ⟨fun h => ?_, fun hp hlt => ?_⟩⟩
  · obtain ⟨-, -, hF⟩ := groups8EAndFSelectByTheirSecondField c w
    obtain ⟨-, -, -, -, -, -, -, -, hld, -⟩ := hF hop
    exact hld
  · exact ⟨_, withData_of_inBounds s (x.val + 1) _ h, fun k hk => (s.reg_regsLoaded x k).trans (if_pos hk),
      .regsLoaded s x⟩
  · exact faults_of_listedFault (listedDataFault_of_lt hp hlt)

end Sys2Proof.Machine
end

section
/-! The words of the rows CLS and DRW (spec/30_encoding.md R111, R112). -/

namespace Sys2Proof

theorem decodeWord_groupD {c : Config} {w : Word} (h : fieldOp w = 0xD) :
    decodeWord c w = .drw (fieldX w) (fieldY w) (fieldN w) := by
  simp [decodeWord, h]

/-- The word 00E0 is CLS under both matches of group 0 (R112). -/
theorem decodeWord_00E0 (c : Config) : decodeWord c 0x00E0 = .cls := by
  obtain ⟨hfull, hlow, -⟩ := group0DecodesByItsMatch c 0x00E0 rfl
  cases hg : c.group0 with
  | fullWord =>
    obtain ⟨hcls, -⟩ := hfull hg
    exact hcls rfl
  | lowByte =>
    obtain ⟨hcls, -⟩ := hlow hg
    exact hcls rfl

end Sys2Proof
end

section
/-! The display (spec/44_display.md): what the two loops of R212 do to a canvas, said with the set of pixels they
flip. Every sprite pixel falls on a screen pixel of its own (R211), so each is flipped once. -/

namespace Sys2Proof.Machine

/-! ### Flipping a set of pixels -/

/-- A set of screen pixels. -/
abbrev PixelSet := Fin 64 → Fin 32 → Prop

/-- From the canvas `c` to `c'` the pixels of the set are flipped and no other, and a collision is noted where one
of them was 1. -/
structure Drawn (pixels : PixelSet) (c c' : Canvas) : Prop where
  flips : ∀ px py, pixels px py → c'.1.at px py = c.1.at px py ^^^ 1
  keeps : ∀ px py, ¬ pixels px py → c'.1.at px py = c.1.at px py
  collides : c'.2 = true ↔ c.2 = true ∨ ∃ px py, pixels px py ∧ c.1.at px py = 1

/-- What the empty set of pixels does. -/
theorem Drawn.nothing {pixels : PixelSet} (c : Canvas) (h : ∀ px py, ¬ pixels px py) : Drawn pixels c c where
  flips px py hp := absurd hp (h px py)
  keeps _ _ _ := rfl
  collides := by simp [h]

/-- A set of pixels drawn in two parts that share no pixel: the second part finds its pixels as they were. -/
theorem Drawn.union {pixels first second : PixelSet} {c c' c'' : Canvas} (h : Drawn first c c')
    (h' : Drawn second c' c'') (hunion : ∀ px py, pixels px py ↔ first px py ∨ second px py)
    (hdisjoint : ∀ px py, first px py → ¬ second px py) : Drawn pixels c c'' where
  flips px py hp := by
    rcases (hunion px py).1 hp with hp | hp
    · rw [h'.keeps px py (hdisjoint px py hp), h.flips px py hp]
    · rw [h'.flips px py hp, h.keeps px py fun hp' => hdisjoint px py hp' hp]
  keeps px py hp := by
    rw [hunion, not_or] at hp
    rw [h'.keeps px py hp.2, h.keeps px py hp.1]
  collides := by
    have hsecond : (∃ px py, second px py ∧ c'.1.at px py = 1) ↔ ∃ px py, second px py ∧ c.1.at px py = 1 :=
      exists₂_congr fun px py => and_congr_right fun hp => by
        rw [h.keeps px py fun hp' => hdisjoint px py hp' hp]
    simp only [h'.collides, h.collides, hsecond, hunion, or_and_right, exists_or, or_assoc]

/-! ### The pixels of a sprite (R211) -/

/-- The pixels under a set pixel among the first `cols` of a sprite byte drawn on screen row `(y0 + row) mod 32`. -/
def ByteCovers (x0 y0 row : Nat) (b : Byte) (cols : Nat) : PixelSet := fun px py =>
  ∃ col < cols, px = spriteColumn x0 col ∧ py = spriteRow y0 row ∧ spriteBit b col = true

/-- The pixels under a set pixel of sprite bytes drawn from row `row` on. -/
def BytesCover (x0 y0 row : Nat) (bytes : List Byte) : PixelSet := fun px py =>
  ∃ k b, bytes[k]? = some b ∧ ByteCovers x0 y0 (row + k) b 8 px py

/-- Columns of a sprite fall on different columns of the screen. -/
theorem spriteColumn_inj {x0 i j : Nat} (hi : i < 64) (hj : j < 64) (h : spriteColumn x0 i = spriteColumn x0 j) :
    i = j := by
  have : (x0 + i) % 64 = (x0 + j) % 64 := congrArg Fin.val h
  omega

/-- Rows of a sprite that are less than 32 apart fall on different rows of the screen. -/
theorem spriteRow_ne {y0 row k : Nat} (hk : k + 1 < 32) : spriteRow y0 row ≠ spriteRow y0 (row + 1 + k) := by
  intro h
  have : (y0 + row) % 32 = (y0 + (row + 1 + k)) % 32 := congrArg Fin.val h
  omega

theorem byteCovers_succ (x0 y0 row : Nat) (b : Byte) (cols : Nat) (px : Fin 64) (py : Fin 32) :
    ByteCovers x0 y0 row b (cols + 1) px py ↔ ByteCovers x0 y0 row b cols px py
      ∨ px = spriteColumn x0 cols ∧ py = spriteRow y0 row ∧ spriteBit b cols = true := by
  simp only [ByteCovers, Nat.exists_lt_succ_right]

theorem bytesCover_cons (x0 y0 row : Nat) (b : Byte) (rest : List Byte) (px : Fin 64) (py : Fin 32) :
    BytesCover x0 y0 row (b :: rest) px py ↔
      ByteCovers x0 y0 row b 8 px py ∨ BytesCover x0 y0 (row + 1) rest px py := by
  constructor
  · rintro ⟨_ | k, b', hk, hpixel⟩
    · obtain rfl : b = b' := by simpa using hk
      exact .inl hpixel
    · exact .inr ⟨k, b', hk, by rwa [Nat.add_right_comm, Nat.add_assoc]⟩
  · rintro (hpixel | ⟨k, b', hk, hpixel⟩)
    · exact ⟨0, b, rfl, hpixel⟩
    · exact ⟨k + 1, b', hk, by rwa [← Nat.add_assoc, Nat.add_right_comm]⟩

theorem length_readBlock (p : MemOobPolicy) (m : Memory) (a count : Nat) : (m.readBlock p a count).length = count := by
  simp [Memory.readBlock]

theorem readBlock_getElem?_eq_some {p : MemOobPolicy} {m : Memory} {a count k : Nat} {b : Byte} :
    (m.readBlock p a count)[k]? = some b ↔ k < count ∧ m.read (memIndex p (a + k)) = b := by
  simp [Memory.readBlock, List.getElem?_eq_some_iff]

/-- The pixels of the bytes at I are those that R211 has the sprite cover. -/
theorem bytesCover_readBlock (s : State) (x y : Reg) (n : Nat) :
    BytesCover (startColumn (s.reg x)) (startRow (s.reg y)) 0 (s.mem.readBlock s.cfg.memOob s.i.toNat n) =
      s.SpriteCovers x y n := by
  funext px py
  refine propext ⟨?_, ?_⟩
  · rintro ⟨row, b, hb, col, hcol, rfl, rfl, hbit⟩
    obtain ⟨hrow, rfl⟩ := readBlock_getElem?_eq_some.1 hb
    refine ⟨row, hrow, col, hcol, rfl, ?_, hbit⟩
    rw [Nat.zero_add]; rfl
  · rintro ⟨row, hrow, col, hcol, hpx, hpy, hbit⟩
    refine ⟨row, _, readBlock_getElem?_eq_some.2 ⟨hrow, rfl⟩, col, hcol, Fin.ext hpx, ?_, hbit⟩
    rw [Nat.zero_add]; exact Fin.ext hpy

/-! ### The loops of R212 -/

/-- One sprite pixel. -/
theorem drawn_drawPixel (px : Fin 64) (py : Fin 32) (set : Bool) (c : Canvas) :
    Drawn (fun qx qy => qx = px ∧ qy = py ∧ set = true) c (drawPixel px py set c) := by
  cases set with
  | false => exact .nothing c (by simp)
  | true =>
    refine ⟨?_, fun qx qy hq => ?_, ?_⟩
    · rintro _ _ ⟨rfl, rfl, -⟩
      simp [drawPixel, Video.at_put]
    · have : ¬ (qx = px ∧ qy = py) := fun h => hq ⟨h.1, h.2, rfl⟩
      simp [drawPixel, Video.at_put, this]
    · simp [drawPixel]

/-- The inner loop, column by column. -/
theorem drawn_columns (x0 y0 row : Nat) (b : Byte) (c : Canvas) (cols : Nat) (hcols : cols ≤ 64) :
    Drawn (ByteCovers x0 y0 row b cols) c ((List.range cols).foldl
      (fun c col => drawPixel (spriteColumn x0 col) (spriteRow y0 row) (spriteBit b col) c) c) := by
  induction cols with
  | zero => exact .nothing c fun _ _ ⟨_, hcol, _⟩ => Nat.not_lt_zero _ hcol
  | succ cols ih =>
    rw [List.range_succ, List.foldl_append]
    refine (ih (by omega)).union (drawn_drawPixel _ _ _ _) (byteCovers_succ x0 y0 row b cols) ?_
    rintro _ _ ⟨col, hcol, rfl, -⟩ ⟨hcols', -⟩
    exact absurd (spriteColumn_inj (by omega) (by omega) hcols') hcol.ne

theorem drawn_drawRow (x0 y0 row : Nat) (b : Byte) (c : Canvas) :
    Drawn (ByteCovers x0 y0 row b 8) c (drawRow x0 y0 row b c) :=
  drawn_columns x0 y0 row b c 8 (by decide)

/-- The outer loop, row by row. -/
theorem drawn_drawRows (x0 y0 row : Nat) (bytes : List Byte) (c : Canvas) (hlen : bytes.length ≤ 32) :
    Drawn (BytesCover x0 y0 row bytes) c (drawRows x0 y0 row bytes c) := by
  induction bytes generalizing row c with
  | nil => exact .nothing c fun _ _ ⟨_, _, hb, _⟩ => by simp at hb
  | cons b rest ih =>
    rw [List.length_cons] at hlen
    refine (drawn_drawRow x0 y0 row b c).union (ih (row + 1) _ (by omega)) (bytesCover_cons x0 y0 row b rest) ?_
    rintro _ _ ⟨_, _, rfl, rfl, -⟩ ⟨k, b', hk, _, _, -, hrow, -⟩
    obtain ⟨hk, -⟩ := List.getElem?_eq_some_iff.1 hk
    exact spriteRow_ne (by omega) hrow

/-! ### The flag -/

theorem flagByte_eq_one_iff (b : Bool) : flagByte b = 1 ↔ b = true := by
  cases b <;> decide

theorem flagByte_of_ne_one {b : Bool} (h : flagByte b ≠ 1) : flagByte b = 0 := by
  cases b with
  | false => rfl
  | true => exact absurd rfl h

/-! ### Drawing a sprite -/

section

variable (s : State) (x y : Reg) (n : Fin 16)

/-- The draw flips the pixels that the sprite covers, and VF is the collision. -/
theorem drawn_drawSprite : ∃ hit, (s.drawSprite x y n.val).reg regF = flagByte hit ∧
    Drawn (s.SpriteCovers x y n.val) (s.video, false) ((s.drawSprite x y n.val).video, hit) := by
  refine ⟨_, State.reg_setReg_self _ _ _, ?_⟩
  rw [← bytesCover_readBlock]
  exact drawn_drawRows _ _ _ _ _ (by rw [length_readBlock]; omega)

variable {s x y n}

theorem drawSprite_at_of_covers {px : Fin 64} {py : Fin 32} (h : s.SpriteCovers x y n.val px py) :
    (s.drawSprite x y n.val).video.at px py = s.video.at px py ^^^ 1 := by
  obtain ⟨_, -, hdrawn⟩ := drawn_drawSprite s x y n
  exact hdrawn.flips px py h

theorem drawSprite_at_of_not_covers {px : Fin 64} {py : Fin 32} (h : ¬ s.SpriteCovers x y n.val px py) :
    (s.drawSprite x y n.val).video.at px py = s.video.at px py := by
  obtain ⟨_, -, hdrawn⟩ := drawn_drawSprite s x y n
  exact hdrawn.keeps px py h

variable (s x y n)

/-- R212's collision, said of the screen before the draw. -/
theorem drawSprite_regF_eq_one_iff : (s.drawSprite x y n.val).reg regF = 1 ↔
    ∃ px py, s.SpriteCovers x y n.val px py ∧ s.video.at px py = 1 := by
  obtain ⟨hit, hflag, hdrawn⟩ := drawn_drawSprite s x y n
  rw [hflag, flagByte_eq_one_iff, hdrawn.collides]
  simp

/-- Where there is no collision VF is cleared, also by a sprite of no rows. -/
theorem drawSprite_regF_eq_zero (h : (s.drawSprite x y n.val).reg regF ≠ 1) :
    (s.drawSprite x y n.val).reg regF = 0 := by
  obtain ⟨hit, hflag, -⟩ := drawn_drawSprite s x y n
  rw [hflag] at h ⊢
  exact flagByte_of_ne_one h

/-- A draw keeps all but the screen and VF. -/
theorem KeepsAllBut.drawSprite : KeepsAllBut [.video] [regF] [] s (s.drawSprite x y n.val) := by
  refine ⟨fun p hp => ?_, effect_reg s (.drw x y n), fun _ _ => rfl⟩
  cases p with
  | video => simp at hp
  | _ => simp [Part.same, State.entry, State.pressed, State.drawSprite]

end

/-- Settles O37: the answer in bounds is the draw, and the fault is the listed one. -/
theorem drawFlipsExactlyTheCoveredPixels : Obligations.DrawFlipsExactlyTheCoveredPixels := by
  refine ⟨fun _ _ => decodeWord_groupD, fun x y n s => ⟨fun h => ?_, fun hp hn hlt => ?_⟩⟩
  · exact ⟨_, withData_of_inBounds s n.val _ h,
      fun px py => ⟨drawSprite_at_of_covers, drawSprite_at_of_not_covers⟩,
      (drawSprite_regF_eq_one_iff s x y n).2,
      fun hnone => drawSprite_regF_eq_zero s x y n (mt (drawSprite_regF_eq_one_iff s x y n).1 hnone),
      .drawSprite s x y n⟩
  · obtain ⟨last, hlast⟩ := Nat.exists_eq_add_one.2 hn
    refine faults_of_listedFault (?_ : s.listedDataFault n.val = _)
    rw [hlast]
    exact listedDataFault_of_lt hp (by omega)

/-! ### Drawing twice -/

/-- A draw that changes neither coordinate register leaves the sprite where it was. -/
theorem spriteCovers_drawSprite {x y : Reg} (hx : x ≠ regF) (hy : y ≠ regF) (n : Fin 16) (s : State) :
    (s.drawSprite x y n.val).SpriteCovers x y n.val = s.SpriteCovers x y n.val := by
  obtain ⟨-, hreg, -⟩ := KeepsAllBut.drawSprite s x y n
  have hbyte : (s.drawSprite x y n.val).dataByte = s.dataByte := rfl
  funext px py
  simp only [State.SpriteCovers, hreg x (by simpa using hx), hreg y (by simpa using hy), hbyte]

/-- Settles O38: each covered pixel is flipped and flipped back, and the second draw finds a 1 where the first
found a 0. -/
theorem drawingTwiceRestoresTheScreen : Obligations.DrawingTwiceRestoresTheScreen := by
  intro x y n s hx hy h
  have hcovers := spriteCovers_drawSprite hx hy n s
  refine ⟨_, _, withData_of_inBounds s n.val _ h, withData_of_inBounds (s.drawSprite x y n.val) n.val _ h,
    fun px py => ?_, ?_⟩
  · by_cases hc : s.SpriteCovers x y n.val px py
    · rw [drawSprite_at_of_covers (hcovers ▸ hc), drawSprite_at_of_covers hc, BitVec.xor_assoc, BitVec.xor_self,
        BitVec.xor_zero]
    · rw [drawSprite_at_of_not_covers (hcovers ▸ hc), drawSprite_at_of_not_covers hc]
  · rw [drawSprite_regF_eq_one_iff, hcovers]
    refine exists₂_congr fun px py => ?_
    by_cases hc : s.SpriteCovers x y n.val px py
    · simp [hc, drawSprite_at_of_covers hc]
    · simp +contextual [hc, drawSprite_at_of_not_covers hc]

/-- Refutes O39: a sprite of one pixel over a pixel that is 1 turns it off, so the second draw finds a 0 there. -/
theorem not_secondDrawFlagsEveryNonemptySprite : ¬ Obligations.SecondDrawFlagsEveryNonemptySprite := by
  intro h
  -- At (0, 0), the place of the one pixel of the byte 0x80, the screen pixel is 1.
  have hiff := h 0 1 1 { State.reset with mem := [(0x300, 0x80)], i := 0x300, video := Video.blank.put 0 0 1 } _ _
    (by decide) (by decide) (.inr (.inl (by decide))) rfl rfl
  exact absurd (hiff.2 ⟨0, 0, 0, by decide, 0, by decide, by decide, by decide, by decide⟩) (by decide)

/-! ### Clearing the screen -/

/-- Settles O36: the screen alone is written, and all of it. -/
theorem clearScreenClearsEveryPixel : Obligations.ClearScreenClearsEveryPixel := by
  refine ⟨decodeWord_00E0, fun s => ⟨_, rfl, Video.at_blank, .of_parts _ s _ rfl rfl fun p hp => ?_⟩⟩
  cases p with
  | video => simp at hp
  | _ => simp [Part.same, State.entry, State.pressed]

end Sys2Proof.Machine
end

section
/-! Keypad and timers (spec/45_keypad_timers.md): the wait for a key, the key skips and the timer transfers. -/

namespace Sys2Proof.Machine

variable {s : State} {x : Reg}

/-- A cycle whose instruction latches nothing leaves what the instruction left, with the timers fallen (R260). -/
theorem cycle_of_exec_of_no_fault (r : Byte) {i : Instr} {t : State} (h : s.fault = none) (hf : s.fetchFault = none)
    (hdec : decodeWord s.cfg s.fetchWord = i) (hx : exec i (s.fetched r s.fetchWord) = .next t)
    (ht : t.fault = none) : cycle r s = .next t.tick := by
  subst hdec
  rw [cycle_of_exec r h hf hx, settle_of_none s t ht]

/-! ### The key wait (R234 to R236) -/

/-- The lowest pressed key is the one the wait takes (R235). -/
theorem firstKey_of_lowest {k : Fin 16} (hk : s.pressed k = true) (hlow : ∀ j, j < k → s.pressed j = false) :
    s.firstKey = some k := by
  cases h : s.firstKey with
  | none =>
    have hup := (firstKey_eq_none s).1 h k
    simp [hk] at hup
  | some j =>
    obtain ⟨hj, hjlow⟩ := firstKey_eq_some s j h
    obtain hlt | rfl | hlt := lt_trichotomy j k
    · simp [hlow j hlt] at hj
    · rfl
    · simp [hjlow k hlt] at hk

theorem exec_ldVxK_of_firstKey {k : Fin 16} (h : s.firstKey = some k) :
    exec (.ldVxK x) s = .next (s.setReg x (BitVec.ofNat 8 k.val)) := by
  simp [exec, execLdVxK, h]

theorem exec_ldVxK_of_no_key (h : ∀ k, s.pressed k = false) :
    exec (.ldVxK x) s = .next { s with pc := s.pc - 2 } := by
  simp [exec, execLdVxK, (firstKey_eq_none s).2 h]

variable (s) in
theorem KeepsAllBut.withPc (a : Word) : KeepsAllBut [.pc] [] [] s { s with pc := a } := by
  refine .of_parts _ s _ rfl rfl fun p hp => ?_
  cases p with
  | pc => simp at hp
  | _ => simp [Part.same, State.entry, State.pressed]

variable (s) in
/-- The fetch and the timers' fall keep all but their own parts, and the pc too where the instruction takes it
back. -/
theorem KeepsAllBut.fetched_tick_back (r : Byte) (w : Word) :
    KeepsAllBut [.delayTimer, .soundTimer, .opcode, .draws] [] [] s
      (State.tick { s.fetched r w with pc := (s.fetched r w).pc - 2 }) := by
  refine .of_parts _ s _ rfl rfl fun p hp => ?_
  cases p with
  | delayTimer | soundTimer | opcode | draws => simp at hp
  | pc => exact BitVec.add_sub_cancel s.pc 2
  | _ => simp [Part.same, State.entry, State.pressed]

/-- Settles O42: the instruction takes back the fetch's step of the pc, and then the timers fall. -/
theorem keyWaitCycleStaysInPlace : Obligations.KeyWaitCycleStaysInPlace := by
  intro r s x h hf hdec hkeys
  exact ⟨_, cycle_of_exec_of_no_fault r h hf hdec (exec_ldVxK_of_no_key hkeys) h, .fetched_tick_back s r _, rfl,
    timerTick_toNat s.dt, timerTick_toNat s.st⟩

/-- Settles O41: the two answers of the wait. -/
theorem keyWaitTakesTheLowestKey : Obligations.KeyWaitTakesTheLowestKey := by
  refine ⟨fun c w hop => ?_, fun x s => ⟨fun k hk hlow => ?_, fun hkeys => ?_⟩⟩
  · obtain ⟨-, -, hF⟩ := groups8EAndFSelectByTheirSecondField c w
    obtain ⟨-, hldVxK, -⟩ := hF hop
    exact hldVxK
  · refine ⟨_, exec_ldVxK_of_firstKey (firstKey_of_lowest hk hlow), ?_, .setReg s x _⟩
    rw [State.reg_setReg_self, BitVec.toNat_ofNat, Nat.mod_eq_of_lt (by omega)]
  · exact ⟨_, exec_ldVxK_of_no_key hkeys, rfl, .withPc s _⟩

/-! ### The key skips (R230 to R232) -/

theorem keyTest_of_number {v : Byte} {k : Fin 16} (h : v.toNat = k.val) : s.keyTest v = some (s.pressed k) := by
  simp [keyTest_of_lt s v (h ▸ k.isLt), h]

theorem keyTest_of_notPressed {v : Byte} (h : 0xF < v.toNat) (hp : s.cfg.keyOob = .notPressed) :
    s.keyTest v = some false := by
  simp [keyTest_of_ge s v h, hp]

theorem keyTest_of_lowNibble {v : Byte} {k : Fin 16} (h : 0xF < v.toNat) (hp : s.cfg.keyOob = .lowNibble)
    (hk : v.toNat % 16 = k.val) : s.keyTest v = some (s.pressed k) := by
  simp [keyTest_of_ge s v h, hp, hk]

/-- A key skip whose test answers: it writes the pc alone. -/
theorem skipOnKey_of_keyTest (wanted : Bool) {down : Bool} (h : s.keyTest (s.reg x) = some down) :
    ∃ t, skipOnKey wanted x s = .next t ∧ KeepsAllBut [.pc] [] [] s t
      ∧ t.pc.toNat = if down = wanted then (s.pc.toNat + 2) % 65536 else s.pc.toNat := by
  refine ⟨s.skipIf (down == wanted), by simp [skipOnKey, h], .skipIf s _, ?_⟩
  simp only [skipIf_pc_toNat, beq_iff_eq]

/-- Settles O40: the test answers in each of the three cases, and the fault is the listed one. -/
theorem keySkipsTestTheKeypad : Obligations.KeySkipsTestTheKeypad := by
  refine ⟨fun c w hop => ?_, fun x s => ⟨fun down hdown => ?_, fun hlt hp i hi => ?_⟩⟩
  · obtain ⟨-, hE, -⟩ := groups8EAndFSelectByTheirSecondField c w
    obtain ⟨hskp, hsknp, -⟩ := hE hop
    exact ⟨hskp, hsknp⟩
  · have htest : s.keyTest (s.reg x) = some down := by
      obtain ⟨k, hk, rfl⟩ | ⟨hlt, hp, rfl⟩ | ⟨hlt, hp, k, hk, rfl⟩ := hdown
      · exact keyTest_of_number hk
      · exact keyTest_of_notPressed hlt hp
      · exact keyTest_of_lowNibble hlt hp hk
    exact ⟨skipOnKey_of_keyTest true htest, skipOnKey_of_keyTest false htest⟩
  · have hlisted : s.listedKeyFault x = some (.keyIndexOutOfRange, zext16 (s.reg x)) := if_pos ⟨hp, hlt⟩
    simp only [List.mem_cons, List.not_mem_nil, or_false] at hi
    obtain rfl | rfl := hi <;> exact faults_of_listedFault hlisted

/-! ### The timer transfers (R233, R237, R238) -/

variable (s) in
theorem KeepsAllBut.withDelayTimer (b : Byte) : KeepsAllBut [.delayTimer] [] [] s { s with dt := b } := by
  refine .of_parts _ s _ rfl rfl fun p hp => ?_
  cases p with
  | delayTimer => simp at hp
  | _ => simp [Part.same, State.entry, State.pressed]

variable (s) in
theorem KeepsAllBut.withSoundTimer (b : Byte) : KeepsAllBut [.soundTimer] [] [] s { s with st := b } := by
  refine .of_parts _ s _ rfl rfl fun p hp => ?_
  cases p with
  | soundTimer => simp at hp
  | _ => simp [Part.same, State.entry, State.pressed]

/-- Settles O43: each transfer is one write, made before the timers fall. -/
theorem timerTransfers : Obligations.TimerTransfers := by
  refine ⟨fun c w hop => ?_, fun x s => ⟨⟨_, rfl, s.reg_setReg_self x s.dt, .setReg s x _⟩,
    ⟨_, rfl, rfl, .withDelayTimer s _⟩, ⟨_, rfl, rfl, .withSoundTimer s _⟩, fun r h hf =>
    ⟨fun hdec => ?_, fun hdec => ?_, fun hdec => ?_⟩⟩⟩
  · obtain ⟨-, -, hF⟩ := groups8EAndFSelectByTheirSecondField c w
    obtain ⟨hldVxDt, -, hldDtVx, hldStVx, -⟩ := hF hop
    exact ⟨hldVxDt, hldDtVx, hldStVx⟩
  · exact ⟨_, cycle_of_exec_of_no_fault r h hf hdec rfl h, (s.fetched r s.fetchWord).reg_setReg_self x s.dt,
      timerTick_toNat s.dt⟩
  · exact ⟨_, cycle_of_exec_of_no_fault r h hf hdec rfl h, timerTick_toNat (s.reg x)⟩
  · exact ⟨_, cycle_of_exec_of_no_fault r h hf hdec rfl h, timerTick_toNat (s.reg x)⟩

end Sys2Proof.Machine
end

section
/-! The fault table at the cycle (spec/60_exceptions.md R251 to R254), and the timers' fall (R260, R261). -/

namespace Sys2Proof.Machine

variable {s t : State}

/-! ### The invariant -/

/-- Settles O49: a step is a cycle. -/
theorem stepKeepsTheInvariant : Obligations.StepKeepsTheInvariant := by
  intro s t h hstep
  obtain ⟨u, hcycle, hu⟩ := cycle_keeps_inv (Config.randomByte s.drawIndex) h
  cases hcycle.symm.trans hstep
  exact hu

/-! ### The record of a cycle (R251) -/

/-- Row 1: a fetch that fails has its own record listed. -/
theorem listedRecord_of_fetchFault {a : Nat} (h : s.fetchFault = some a) :
    s.listedRecord = some (s.fetchRecord a) := by
  obtain ⟨hp, hpc, -⟩ := (fetchFault_eq_some s a).1 h
  rw [State.listedRecord, if_pos ⟨hp, hpc⟩, fetchRecord_eq h]

/-- Rows 2 to 5: where the fetch passes, the record is that of the fetched instruction's fault. -/
theorem listedRecord_of_fetch (h : s.fetchFault = none) :
    s.listedRecord = (listedFault (decodeWord s.cfg s.fetchWord) s).map fun f =>
      ⟨f.1, s.pc, s.fetchWord, f.2⟩ := by
  refine if_neg fun ⟨hp, hpc⟩ => ?_
  rw [(fetchFault_eq_some s _).2 ⟨hp, hpc, rfl⟩] at h
  cases h

theorem listedRecord_pc {f : FaultRecord} (h : s.listedRecord = some f) : f.pc = s.pc := by
  cases hf : s.fetchFault with
  | some a =>
    cases (listedRecord_of_fetchFault hf).symm.trans h
    rfl
  | none =>
    obtain ⟨_, -, rfl⟩ := Option.map_eq_some_iff.1 ((listedRecord_of_fetch hf).symm.trans h)
    rfl

/-- What a cycle leaves where the core has no fault latched: the state with the listed record latched, or the
effect of the fetched instruction and then the timers' fall (R100, R253, R260). -/
theorem cycle_cases {r : Byte} (h : s.fault = none) (hc : cycle r s = .next t) :
    (∃ f, s.listedRecord = some f ∧ t = s.latch f)
      ∨ (s.listedRecord = none
        ∧ t = (effect (decodeWord s.cfg s.fetchWord) (s.fetched r s.fetchWord)).tick) := by
  cases hf : s.fetchFault with
  | some a =>
    cases (cycle_of_fetchFault s r a h hf).symm.trans hc
    exact .inl ⟨_, listedRecord_of_fetchFault hf, rfl⟩
  | none =>
    cases hl : listedFault (decodeWord s.cfg s.fetchWord) s with
    | some f =>
      cases (cycle_of_listedFault r h hf hl).symm.trans hc
      exact .inl ⟨_, by rw [listedRecord_of_fetch hf, hl]; rfl, rfl⟩
    | none =>
      cases (cycle_of_no_listedFault r h hf hl).symm.trans hc
      exact .inr ⟨by rw [listedRecord_of_fetch hf, hl]; rfl, rfl⟩

/-- The latch after a cycle is what the table lists. -/
theorem cycle_fault {r : Byte} (h : s.fault = none) (hc : cycle r s = .next t) : t.fault = s.listedRecord := by
  obtain ⟨f, hl, rfl⟩ | ⟨hl, rfl⟩ := cycle_cases h hc
  · rw [hl, State.latch_fault]
  · rw [hl, State.tick_fault, (effect_change _ _).fault_eq, State.fetched_fault, h]

/-- Settles O15. -/
theorem cycleLatchesExactlyTheListedRecord : Obligations.CycleLatchesExactlyTheListedRecord := by
  refine ⟨fun r s h => ?_, rfl⟩
  obtain ⟨t, hc⟩ := exists_cycle_eq_next r s
  exact ⟨t, hc, cycle_fault h hc⟩

/-- Settles O12: a record in the latch means that the cycle ended in the first of its two ways. -/
theorem faultingCycleChangesOnlyTheLatch : Obligations.FaultingCycleChangesOnlyTheLatch := by
  intro r s t f h hc ht
  have hl : s.listedRecord = some f := (cycle_fault h hc).symm.trans ht
  obtain ⟨g, hg, rfl⟩ | ⟨hnone, -⟩ := cycle_cases h hc
  · cases ht
    exact ⟨rfl, hl, listedRecord_pc hl⟩
  · cases hnone.symm.trans hl

/-- Settles O14: the closed form of `exec`, in its two cases. -/
theorem instructionsRaiseExactlyTheListedFaults : Obligations.InstructionsRaiseExactlyTheListedFaults := by
  refine fun i s => ⟨fun cause addr h => (faults_of_listedFault h).1, fun h => ?_⟩
  exact ⟨effect i s, by rw [exec_eq, h, latchOr_none], (effect_change s i).fault_eq⟩

/-! ### A latched core (R254) -/

/-- A program that fits is written from 0x200 on (R283). -/
theorem run_loadProgram_of_le {bytes : List Byte} (h : bytes.length ≤ maxProgram) :
    (HostOp.loadProgram bytes).run s =
      .next ({ s with mem := s.mem.writeBlock .fault programStart bytes }, .ok) := by
  simp [HostOp.run, State.loadProgram, h]

/-- Settles O13: each port but `reset` leaves the latch as it is. -/
theorem latchedCoreWaitsForReset : Obligations.LatchedCoreWaitsForReset := by
  refine fun s f h => ⟨fun r => ?_, cycle_of_faulted s _ f h, fun k b => ⟨_, rfl, ?_, h⟩,
    fun bytes hlen => ⟨_, run_loadProgram_of_le hlen, h, fun k hk => ?_⟩, ⟨_, rfl, rfl⟩⟩
  · rw [run_cycle_of_next (cycle_of_faulted s r f h), cycleReply_of_some h]
  · rw [s.pressed_setKey, if_pos rfl]
  · exact Memory.read_writeBlock .fault s.mem programStart bytes (hlen.trans (by decide)) k hk

/-! ### The timers (R260, R261) -/

theorem Change.dt_eq {n : Nat} (h : Change n s t) (hn : n ≠ 29) : t.dt = s.dt := by
  cases h with
  | delayTimer h => exact absurd h hn
  | _ => rfl

theorem Change.st_eq {n : Nat} (h : Change n s t) (hn : n ≠ 30) : t.st = s.st := by
  cases h with
  | soundTimer h => exact absurd h hn
  | _ => rfl

/-- Fx15 alone writes the delay timer (R237). -/
theorem effect_dt {i : Instr} (h : ∀ x, i ≠ .ldDtVx x) : (effect i s).dt = s.dt := by
  refine (effect_change s i).dt_eq ?_
  cases i with
  | ldDtVx x => exact absurd rfl (h x)
  | _ => simp [Instr.rowNumber]

/-- Fx18 alone writes the sound timer (R238). -/
theorem effect_st {i : Instr} (h : ∀ x, i ≠ .ldStVx x) : (effect i s).st = s.st := by
  refine (effect_change s i).st_eq ?_
  cases i with
  | ldStVx x => exact absurd rfl (h x)
  | _ => simp [Instr.rowNumber]

/-- Settles O16: the fall is that of the timer which the effect leaves, and only Fx15 and Fx18 write one. -/
theorem timersFallInEveryCompletedCycle : Obligations.TimersFallInEveryCompletedCycle := by
  refine fun r s t hc => ⟨fun h ht => ?_, fun ht => ?_⟩
  · obtain ⟨f, -, rfl⟩ | ⟨-, rfl⟩ := cycle_cases h hc
    · cases ht
    · rw [State.tick_dt, State.tick_st, timerTick_toNat, timerTick_toNat]
      refine ⟨fun x hx => ?_, fun hx => ?_, fun x hx => ?_, fun hx => ?_⟩
      · rw [hx]; rfl
      · rw [effect_dt hx, State.fetched_dt]
      · rw [hx]; rfl
      · rw [effect_st hx, State.fetched_st]
  · cases h : s.fault with
    | some f =>
      cases (cycle_of_faulted s r f h).symm.trans hc
      exact ⟨rfl, rfl⟩
    | none =>
      obtain ⟨f, -, rfl⟩ | ⟨hl, -⟩ := cycle_cases h hc
      · exact ⟨rfl, rfl⟩
      · exact absurd ((cycle_fault h hc).trans hl) ht

/-- Settles O17, by induction on the number of falls. -/
theorem timerAfterKFalls : Obligations.TimerAfterKFalls := by
  intro k b
  induction k with
  | zero => rfl
  | succ k ih => rw [Function.iterate_succ_apply', timerTick_toNat, ih, Nat.sub_sub]

end Sys2Proof.Machine
end

section
/-! Halt loops (spec/70_reset_and_hazards.md R292): the word that stands at one, and the cycle that runs it. -/

namespace Sys2Proof.Machine

variable {s : State} {h : Addr12}

/-- Inside the address space both policies index memory by the address itself (R66, R67). -/
theorem memIndex_of_lt (p : MemOobPolicy) {a : Nat} (ha : a < memorySize) : memIndex p a = a := by
  cases p with
  | fault => rfl
  | wrap12 => exact Nat.mod_eq_of_lt ha

/-- The high byte of the word `1hhh`. -/
theorem haltLoop_high_toNat (h : Addr12) :
    (BitVec.ofNat 8 (0x10 ||| h.toNat >>> 8)).toNat = 0x10 + h.toNat / 0x100 := by
  have hlt : h.toNat / 0x100 < 0x10 := by omega
  have hor : 0x10 + h.toNat / 0x100 = 0x10 ||| h.toNat / 0x100 := Nat.two_pow_add_eq_or_of_lt (i := 4) hlt 1
  rw [BitVec.toNat_ofNat, Nat.shiftRight_eq_div_pow, ← hor]
  omega

theorem atHaltLoop_pc_toNat (hl : s.atHaltLoop h) : s.pc.toNat = h.toNat := by
  obtain ⟨hpc, -, -⟩ := hl
  rw [hpc, BitVec.toNat_setWidth_of_le (by decide)]

/-- Below 0xFFF the fetch at a halt loop passes under both policies. -/
theorem fetchFault_atHaltLoop (hl : s.atHaltLoop h) (hlt : h.toNat < 0xFFF) : s.fetchFault = none :=
  fetchFault_eq_none_of_le (.inr (by rw [atHaltLoop_pc_toNat hl]; omega))

/-- The word fetched at a halt loop is a jump's, with the loop's own address. -/
theorem fetchWord_atHaltLoop (hl : s.atHaltLoop h) (hlt : h.toNat < 0xFFF) : s.fetchWord = formatFA 1 h := by
  have hpc := atHaltLoop_pc_toNat hl
  obtain ⟨-, hhi, hlo⟩ := hl
  refine BitVec.eq_of_toNat_eq ?_
  rw [fetchWord_toNat, hpc, memIndex_of_lt _ (by rw [memorySize]; omega), memIndex_of_lt _ (by rw [memorySize]; omega),
    hhi, hlo, haltLoop_high_toNat, BitVec.toNat_setWidth, formatFA_toNat,
    show (1 : BitVec 4).toNat = 1 from rfl]
  omega

theorem decodeWord_atHaltLoop (hl : s.atHaltLoop h) (hlt : h.toNat < 0xFFF) :
    decodeWord s.cfg s.fetchWord = .jp h := by
  rw [fetchWord_atHaltLoop hl hlt, decodeWord_group1 (fieldOp_formatFA 1 h), fieldNNN_formatFA]

/-- The jump of a halt loop takes back the fetch's step of the pc. -/
theorem exec_jp_atHaltLoop (hl : s.atHaltLoop h) (r : Byte) (w : Word) :
    exec (.jp h) (s.fetched r w) = .next { s.fetched r w with pc := (s.fetched r w).pc - 2 } := by
  have hback : (s.fetched r w).pc - 2 = s.pc := BitVec.add_sub_cancel s.pc 2
  have htarget : target (addressOf h) = s.pc :=
    BitVec.eq_of_toNat_eq ((target_addressOf_toNat h).trans (atHaltLoop_pc_toNat hl).symm)
  rw [hback, ← htarget]
  rfl

/-- Being at a halt loop rests on the pc and the memory alone. -/
theorem atHaltLoop_congr {t : State} (hpc : t.pc = s.pc) (hm : t.mem = s.mem) (hl : s.atHaltLoop h) :
    t.atHaltLoop h := by
  rwa [State.atHaltLoop, hpc, hm]

/-- Settles O56: the loop's jump takes back the fetch's step of the pc, and then the timers fall. -/
theorem haltLoopStays : Obligations.HaltLoopStays := by
  intro r s h hrun hlt hl
  have hs : s.fault = none := Option.isNone_iff_eq_none.1 hrun
  refine ⟨_, cycle_of_exec_of_no_fault r hs (fetchFault_atHaltLoop hl hlt) (decodeWord_atHaltLoop hl hlt)
    (exec_jp_atHaltLoop hl r _) hs, .fetched_tick_back s r _, ?_, timerTick_toNat s.dt, timerTick_toNat s.st, hrun,
    atHaltLoop_congr (BitVec.add_sub_cancel s.pc 2) rfl hl⟩
  exact (congrArg BitVec.toNat (fetchWord_atHaltLoop hl hlt)).trans (formatFA_toNat 1 h)

end Sys2Proof.Machine
end

section
/-! Reset and program load (spec/70_reset_and_hazards.md R280 to R284). -/

namespace Sys2Proof.Machine

/-! ### Memory after reset (R27, R280) -/

/-- The `FONTSET` stands from 0x050 on. -/
theorem read_resetMemory (font : Vector Byte fontSize) {k : Nat} (hk : k < fontSize) :
    (resetMemory font).read (fontStart + k) = font[k] := by
  have hlen : font.toList.length = fontSize := font.length_toList
  have hread := Memory.read_writeBlock .fault [] fontStart font.toList (by rw [hlen]; decide) k (by rwa [hlen])
  rw [memIndex_fault] at hread
  rw [resetMemory, hread, Vector.getElem_toList]

/-- Outside the place of the `FONTSET` the background is 0. -/
theorem background_of_not_font {a : Nat} (ha : ¬ (fontStart ≤ a ∧ a < fontStart + fontSize)) :
    Memory.background a = 0 := by
  by_cases hge : fontStart ≤ a
  · have hnone : defaultFontset.toList[a - fontStart]? = none :=
      List.getElem?_eq_none (by rw [Vector.length_toList]; omega)
    rw [Memory.background, if_pos hge, hnone, Option.getD_none]
  · rw [Memory.background, if_neg hge]

/-- Outside the place of the `FONTSET` memory is 0 after reset. -/
theorem read_resetMemory_of_not_font (font : Vector Byte fontSize) {a : Nat}
    (ha : ¬ (fontStart ≤ a ∧ a < fontStart + fontSize)) : (resetMemory font).read a = 0 := by
  rw [resetMemory, Memory.read_writeBlock_of_ne, Memory.read, background_of_not_font ha]
  intro k hk
  rw [Vector.length_toList] at hk
  rw [memIndex_fault]
  omega

/-- Where the `FONTSET` stands the background is the default one. -/
theorem background_of_font {k : Nat} (hk : k < fontSize) :
    Memory.background (fontStart + k) = defaultFontset[k] := by
  have hsome : defaultFontset.toList[k]? = some defaultFontset[k] := by
    rw [Vector.getElem?_toList, Vector.getElem?_eq_getElem hk]
  rw [Memory.background, if_pos (Nat.le_add_right _ _), Nat.add_sub_cancel_left, hsome, Option.getD_some]

/-- After reset with the default `FONTSET` memory reads as the background, so it lists nothing. -/
theorem resetMemory_defaultFontset : resetMemory defaultFontset = [] := by
  refine canonicalMemoriesThatReadAlikeAreEqual _ _ (resetMemory_wf defaultFontset) rfl fun a => ?_
  rw [Memory.read]
  by_cases ha : fontStart ≤ a ∧ a < fontStart + fontSize
  · obtain ⟨k, rfl⟩ := Nat.exists_eq_add_of_le ha.1
    have hk : k < fontSize := Nat.lt_of_add_lt_add_left ha.2
    rw [read_resetMemory _ hk, background_of_font hk]
  · rw [read_resetMemory_of_not_font _ ha, background_of_not_font ha]

/-! ### The port `reset` -/

/-- Settles O51: memory by the two lemmas on `resetMemory`; the rest is the reset state's own. -/
theorem resetPutsEveryPieceInItsResetState : Obligations.ResetPutsEveryPieceInItsResetState := by
  intro s
  refine ⟨_, rfl, fun a ha => read_resetMemory _ ha, fun a _ ha => read_resetMemory_of_not_font _ ?_, fun r => ?_,
    rfl, rfl, rfl, fun j => ?_, rfl, rfl, Video.at_blank, fun k => ?_, rfl, rfl, rfl⟩
  · simp only [fontStart, fontSize]
    omega
  · exact Vector.getElem_replicate r.isLt
  · exact Vector.getElem_replicate j.isLt
  · exact Vector.getElem_replicate k.isLt

/-- Settles O52: under the default parameters the memory of `reset()` is that of the reset state. -/
theorem constructionIsReset : Obligations.ConstructionIsReset := by
  refine ⟨fun s hs => ?_, fun s => ⟨rfl, rfl, rfl⟩⟩
  have hfont : s.cfg.fontset = defaultFontset := congrArg Config.fontset hs
  rw [State.resetPort, hfont, hs, resetMemory_defaultFontset]
  rfl

/-! ### The port `loadProgram` -/

/-- Bytes written from an address on, with no wrap, change the memory at their own addresses alone (R65). -/
theorem KeepsAllBut.withBlock (s : State) (a : Nat) (bytes : List Byte) :
    KeepsAllBut [] [] ((List.range bytes.length).map (a + ·)) s { s with mem := s.mem.writeBlock .fault a bytes } := by
  refine ⟨fun p _ => ?_, fun _ _ => rfl, fun b hb => Memory.read_writeBlock_of_ne _ _ _ _ _ fun k hk e => hb ?_⟩
  · cases p <;> simp [Part.same, State.entry, State.pressed]
  · exact List.mem_map.2 ⟨k, List.mem_range.2 hk, e.symm⟩

/-- A program that does not fit is rejected whole (R284). -/
theorem run_loadProgram_of_lt {s : State} {bytes : List Byte} (h : maxProgram < bytes.length) :
    (HostOp.loadProgram bytes).run s = .next (s, .loadTooLarge) := by
  simp [HostOp.run, State.loadProgram, Nat.not_le.2 h]

/-- Settles O53: the two answers of the port. -/
theorem loadProgramCopiesOrRejects : Obligations.LoadProgramCopiesOrRejects := by
  refine fun bytes s => ⟨fun hlen => ?_, run_loadProgram_of_lt⟩
  refine ⟨_, run_loadProgram_of_le hlen, fun k hk => ?_, .withBlock s programStart bytes⟩
  exact Memory.read_writeBlock .fault s.mem programStart bytes (hlen.trans (by decide)) k hk

end Sys2Proof.Machine
end
